-- ==== Sys2Proof/Word.lean ====
section
/-! DEFINITION. The word types of the engine (00_scope.md R6, R9): every quantity is unsigned, bit 0 the least significant. -/

namespace Sys2Proof

/-- One character, one text register: `CHAR_BITS` = 8 (R6). -/
abbrev Byte := BitVec 8

/-- One digit value, 0 to 63: `DIGIT_BITS` = 6 (R6). -/
abbrev Digit := BitVec 6

/-- An identifier value: `VALUE_BITS` = 64, unsigned (R6, R22). -/
abbrev Value := BitVec 64

/-- A 32-bit register: `LEN`, `CMD`, `STATUS` (R20). -/
abbrev Word32 := BitVec 32

end Sys2Proof
end

