-- ==== Sys2Proof/Config.lean ====
section
/-! DEFINITION. What the built hardware fixes (00_scope.md R6 to R8) and the free values: the 64-bit draw of a failed decode
and the contents of the data registers after a reset, which no definition gives (R11, R231). -/

namespace Sys2Proof.Config

/-- `RADIX` (R6): alphabet size and numeral base. -/
abbrev radix : Nat := 64

/-- `FIXED_WIDTH` (R6): characters of the fixed-width representation. -/
abbrev fixedWidth : Nat := 11

/-- `MIN_LEN` (R6): the shortest variable-width representation. -/
abbrev minLen : Nat := 1

/-- `MAX_LEN` (R6): the longest variable-width representation. -/
abbrev maxLen : Nat := 11

/-- `MAX_ITER` (R6): the bound on digit iterations of any operation. -/
abbrev maxIter : Nat := 11

/-- `REF_ALPHABET` (R8), the default of the open parameter `ALPHABET` (R7, R111): `A` to `Z`, `a` to `z`, `0` to `9`, `-`, `_`.
PRESUMED by the spec itself (general knowledge, G1, G4); log 7. -/
def refAlphabetBytes : List Byte :=
  (List.range' 0x41 26 ++ List.range' 0x61 26 ++ List.range' 0x30 10 ++ [0x2D, 0x5F]).map (BitVec.ofNat 8)

/-- `REF_ALPHABET` as a vector of 64 bytes (R8). -/
def refAlphabet : Vector Byte 64 := ⟨refAlphabetBytes.toArray, by decide⟩

/-- The default of the parameter `TERMINATOR` (R7, R25, D8); log 7. -/
def defaultTerminator : Byte := 0x00

/-- `UNSPEC64` (R11): the value instance `inst` holds in `VAL` after its draw number `draw`, made by a failed decode. A free
value: it has no body, so a statement holds whatever it is. DESIGN CHOICE (the form), log 2; safe. -/
opaque unspec64 (inst draw : Nat) : Value

/-- `VAL` after a reset in a run (R231 "unspecified"), a free value; log 3. -/
opaque resetVal (inst draw : Nat) : Value

/-- `LEN` after a reset in a run (R231 "unspecified"), a free value; log 3. -/
opaque resetLen (inst draw : Nat) : Word32

/-- `TXT[i]` after a reset in a run (R231 "unspecified, each byte independently"), a free value; log 3. -/
opaque resetTxt (inst draw i : Nat) : Byte

end Sys2Proof.Config
end

