-- ==== Sys2Proof/Syntax.lean ====
section
/-! DEFINITION. The syntax: the four commands (30_encoding.md R71), the registers of one instance (20_memory.md R51), the host's
accesses as triples and as script lines (30_encoding.md R82), and the moves of a run (70_reset_and_hazards.md R247). -/

namespace Sys2Proof

/-- The commands, one constructor per row of the opcode map (R2, R71). Operands are implicit registers (R72), so no
constructor has a field. -/
inductive Instr where
  | encf
  | decf
  | encv
  | decv
  deriving DecidableEq, Repr

/-- The registers of one instance that the host reaches by index (R51). -/
inductive Reg where
  | val
  | len
  | cmd
  | status
  | txt (i : Fin 12)
  deriving DecidableEq, Repr

/-- The content of one register at its own width (R52): 64 bits for `VAL`, 32 for `LEN`, `CMD`, `STATUS`, 8 for `TXT[i]`. -/
inductive RegValue where
  | w64 (v : BitVec 64)
  | w32 (v : BitVec 32)
  | w8 (v : BitVec 8)
  deriving DecidableEq, Repr

/-- A host access as the triple (kind, index, value) of R82: `(R, index, -)` or `(W, index, value)`, any numbers. -/
inductive RawAccess where
  | read (index : Nat)
  | write (index value : Nat)
  deriving DecidableEq, Repr

/-- A host access the spec gives a meaning (R82, R248), every value at its register's width. -/
inductive Line where
  | wrVal (v : Value)
  | wrLen (n : Word32)
  | wrStatus (v : Word32)
  | wrTxt (i : Fin 12) (b : Byte)
  | cmd (m : Instr)
  | rd (r : Reg)
  deriving DecidableEq, Repr

/-- One move of a run (R247): a host access to an instance, or a reset of an instance. -/
inductive Move where
  | access (inst : Nat) (a : RawAccess)
  | reset (inst : Nat)
  deriving DecidableEq, Repr

/-- The instance a move is about (R247). -/
def Move.inst : Move → Nat
  | .access k _ => k
  | .reset k => k

end Sys2Proof
end

