-- ==== Sys2Proof/WellFormed.lean ====
section
/-! DEFINITION. Which terms the spec admits: commands, command words (R73), host accesses (R52, R54), moves (R214, R248) and
alphabets (R7, R100, R101). Each check is a Bool. -/

namespace Sys2Proof

/-- Every command is well formed: none has an operand field to constrain (R70, R72). -/
def Instr.wf : Instr → Bool
  | .encf => true
  | .decf => true
  | .encv => true
  | .decv => true

/-- A command word is admitted when its field `ZERO`, bits 31:2, is zero (R70, R73). -/
def commandWordOk (w : Word32) : Bool := w >>> 2 == 0

/-- The indices of the register space that are not reserved (R51, R54). -/
def indexOk (r : Nat) : Bool := decide (r < 4) || (decide (16 ≤ r) && decide (r < 28))

/-- The width in bits of the register at an index, 0 for a reserved index (R51). -/
def indexWidth (r : Nat) : Nat :=
  if r = 0 then 64 else if r < 4 then 32 else if 16 ≤ r ∧ r < 28 then 8 else 0

/-- A triple is a host access of the spec when its index is not reserved (R54), a written value has the register's width
(R52), and a word written to `CMD` is no reserved word (R73). -/
def RawAccess.wf : RawAccess → Bool
  | .read r => indexOk r
  | .write r v => indexOk r && decide (v < 2 ^ indexWidth r) && (decide (r ≠ 2) || decide (v < 4))

/-- A move is well formed on a machine of `n` instances when it names one of them (R7, R214) and its access is well formed. -/
def Move.wf (n : Nat) : Move → Bool
  | .access k a => decide (k < n) && a.wf
  | .reset k => decide (k < n)

/-- "printable" as the spec takes it: 0x21 to 0x7E (R101, D12). -/
def printable (c : Byte) : Bool := decide (0x21 ≤ c.toNat) && decide (c.toNat ≤ 0x7E)

/-- The construction-time check of `ALPHABET` and `TERMINATOR` (R7, R100, R101, R234): 64 distinct printable bytes, none
of them the terminator. -/
def alphabetOk (a : Vector Byte 64) (terminator : Byte) : Bool :=
  decide a.toList.Nodup && a.toList.all printable && !(a.toList.contains terminator)

end Sys2Proof
end

