-- ==== Sys2Proof/Decode.lean ====
section
/-! DEFINITION. The decoders and encoders: command words (30_encoding.md R70, R71, R73), register indices (20_memory.md R51, R54) and
the triples of host accesses (30_encoding.md R82). Decoding is total and rejects by name. -/

namespace Sys2Proof

/-- Why a triple is no access of the spec. Every one is refused, none has a meaning (R248). -/
inductive Reject where
  /-- A register index 4 to 15, or 28 and above (R54). -/
  | reservedIndex (index : Nat)
  /-- A written number that does not fit the register's width: R52 has no such access. DESIGN CHOICE, log 10. -/
  | valueTooWide (index value : Nat)
  /-- A word above 0x00000003 written to `CMD` (R73). -/
  | reservedCommand (word : Word32)
  deriving DecidableEq, Repr

/-- One row of the opcode map (R71): `w` selects the row when `w & mask = match`. -/
structure OpcodeRow where
  instr : Instr
  pattern : Word32
  mask : Word32
  deriving DecidableEq, Repr

/-- The complete opcode map (R71). -/
def opcodeMap : List OpcodeRow :=
  [ { instr := .encf, pattern := 0x00000000, mask := 0xFFFFFFFF },
    { instr := .decf, pattern := 0x00000001, mask := 0xFFFFFFFF },
    { instr := .encv, pattern := 0x00000002, mask := 0xFFFFFFFF },
    { instr := .decv, pattern := 0x00000003, mask := 0xFFFFFFFF } ]

/-- The command a word of `CMD` encodes, by the opcode map; every other word is reserved (R71, R73). -/
def decodeCommand (w : Word32) : Except Reject Instr :=
  match opcodeMap.find? (fun row => w &&& row.mask == row.pattern) with
  | some row => .ok row.instr
  | none => .error (.reservedCommand w)

/-- The register at an index (R51), `none` for a reserved index (R54). -/
def Reg.ofIndex (r : Nat) : Option Reg :=
  if r = 0 then some .val
  else if r = 1 then some .len
  else if r = 2 then some .cmd
  else if r = 3 then some .status
  else if h : 16 ≤ r ∧ r < 28 then some (.txt ⟨r - 16, by omega⟩)
  else none

/-- The width of a register in bits (R51). -/
def Reg.width : Reg → Nat
  | .val => 64
  | .len => 32
  | .cmd => 32
  | .status => 32
  | .txt _ => 8

/-- The access that writes the number `v` to a register, `v` being of the register's width (R52, R53). -/
def decodeWrite (v : Nat) : Reg → Except Reject Line
  | .val => .ok (.wrVal (BitVec.ofNat 64 v))
  | .len => .ok (.wrLen (BitVec.ofNat 32 v))
  | .cmd =>
    match decodeCommand (BitVec.ofNat 32 v) with
    | .ok m => .ok (.cmd m)
    | .error r => .error r
  | .status => .ok (.wrStatus (BitVec.ofNat 32 v))
  | .txt i => .ok (.wrTxt i (BitVec.ofNat 8 v))

/-- The access a triple stands for (R82), or the name of what it breaks. -/
def decodeAccess : RawAccess → Except Reject Line
  | .read r =>
    match Reg.ofIndex r with
    | some g => .ok (.rd g)
    | none => .error (.reservedIndex r)
  | .write r v =>
    match Reg.ofIndex r with
    | some g => if v < 2 ^ g.width then decodeWrite v g else .error (.valueTooWide r v)
    | none => .error (.reservedIndex r)

/-- Field `DIR`, bit 0 (R70): 0 = encode, 1 = decode. -/
def Instr.dir : Instr → BitVec 1
  | .encf => 0
  | .decf => 1
  | .encv => 0
  | .decv => 1

/-- Field `VAR`, bit 1 (R70): 0 = fixed width, 1 = variable width. -/
def Instr.varWidth : Instr → BitVec 1
  | .encf => 0
  | .decf => 0
  | .encv => 1
  | .decv => 1

/-- The word of a command, from the fields of `CMD32` (R70): `ZERO` (30 bits), `VAR`, `DIR`. -/
def encode (i : Instr) : Word32 := (0 : BitVec 30) ++ i.varWidth ++ i.dir

/-- The index of a register (R51). -/
def Reg.index : Reg → Nat
  | .val => 0
  | .len => 1
  | .cmd => 2
  | .status => 3
  | .txt i => 16 + i.val

/-- The triple of an access (R82). -/
def encodeLine : Line → RawAccess
  | .wrVal v => .write 0 v.toNat
  | .wrLen n => .write 1 n.toNat
  | .cmd m => .write 2 (encode m).toNat
  | .wrStatus v => .write 3 v.toNat
  | .wrTxt i b => .write (16 + i.val) b.toNat
  | .rd r => .read r.index

/-- The instruction the decoder reads from the low `nbits` bits of `w`, written to `CMD` as a whole word: the word is a
register's content, so no byte order is involved (R52, R56); log 11. -/
def decodeTableWord (nbits w : Nat) : Option Instr :=
  match decodeAccess (.write 2 (w % 2 ^ nbits)) with
  | .ok (.cmd i) => some i
  | _ => none

theorem decode_word_encf : decodeCommand 0b00000000000000000000000000000000#32 = .ok .encf := by decide

theorem decode_word_decf : decodeCommand 0b00000000000000000000000000000001#32 = .ok .decf := by decide

theorem decode_word_encv : decodeCommand 0b00000000000000000000000000000010#32 = .ok .encv := by decide

theorem decode_word_decv : decodeCommand 0b00000000000000000000000000000011#32 = .ok .decv := by decide

end Sys2Proof
end

