-- ==== Sys2Proof/Machine/Digits.lean ====
section
/-! DEFINITION. The arithmetic of 41_digit_arithmetic.md: the modulo-64 divider (R120 to R122), the accumulator with its overflow
detector (R124 to R127) and the length function (R131). -/

namespace Sys2Proof.Machine

/-- `DivMod64(v)` (R120): quotient and remainder of the unsigned division by 64. -/
def divMod64 (v : Value) : Value × Digit := (v / 64, (v % 64).setWidth 6)

/-- `k` divider steps from `v`, the digits in the order extracted, least significant first (R121): the fixed-width extraction (R122). -/
def extractDigits : Nat → Value → List Digit
  | 0, _ => []
  | k + 1, v => (divMod64 v).2 :: extractDigits k (divMod64 v).1

/-- Divider steps until the remaining value is zero, at least one (R122), at most `fuel`: the variable-width extraction. -/
def extractUntilZero : Nat → Value → List Digit
  | 0, _ => []
  | fuel + 1, v =>
    (divMod64 v).2 :: if (divMod64 v).1 = 0 then [] else extractUntilZero fuel (divMod64 v).1

/-- `MulAdd64(acc, d)` (R124): the overflow bit and the 64 bits kept, from the widened 70-bit intermediate. -/
def mulAdd64 (acc : Value) (d : Digit) : Bool × Value :=
  let wide : BitVec 70 := acc.setWidth 70 * 64 + d.setWidth 70
  (wide.extractLsb' 64 6 != 0, wide.setWidth 64)

/-- The other form of the detector (R125): a test of `acc[63:58]` before the step, and `acc[57:0] || d`. -/
def mulAdd64Shifted (acc : Value) (d : Digit) : Bool × Value :=
  (acc.extractLsb' 58 6 != 0, acc.extractLsb' 0 58 ++ d)

/-- Accumulation from `acc`, most significant digit first (R127); `none` at the first step that overflows (R126). -/
def accumulate (acc : Value) : List Digit → Option Value
  | [] => some acc
  | d :: ds => if (mulAdd64 acc d).1 then none else accumulate (mulAdd64 acc d).2 ds

/-- `Weight(n, i)` = 64^(n-1-i) (R127). -/
def weight (n i : Nat) : Nat := Config.radix ^ (n - 1 - i)

/-- The true value of a digit string, most significant digit first: the sum of `d_i * Weight(n, i)`, exact (R127). -/
def digitsValue : List Digit → Nat
  | [] => 0
  | d :: ds => d.toNat * weight (ds.length + 1) 0 + digitsValue ds

/-- The smallest `n` from `n` on, within `fuel` tries, with `64^n > v`. -/
def leastLength (v : Value) : Nat → Nat → Nat
  | 0, n => n
  | fuel + 1, n => if v.toNat < Config.radix ^ n then n else leastLength v fuel (n + 1)

/-- `VarLen(v)` (R131): 1 for 0, else the smallest `n` such that `64^n > v`; at most 11 (R129). -/
def varLen (v : Value) : Nat := leastLength v (Config.maxLen - 1) Config.minLen

end Sys2Proof.Machine
end

