-- ==== Sys2Proof/Machine/Flags.lean ====
section
/-! DEFINITION. The status register (10_state.md R28, R29) and the error kinds (60_exceptions.md R200): the only flags of the engine. -/

namespace Sys2Proof.Machine

/-- `DecodeError`: a closed set of four kinds (R200). -/
inductive ErrorKind where
  | invalidLength
  | invalidCharacter
  | invalidFormat
  | outOfRange
  deriving DecidableEq, Repr

/-- The code of a kind in `STATUS.ERR` (R28, R200). -/
def ErrorKind.code : ErrorKind → BitVec 3
  | .invalidLength => 1
  | .invalidCharacter => 2
  | .invalidFormat => 3
  | .outOfRange => 4

/-- The `STATUS` word of its fields (R28): bits 31:4 zero, `ERR` in bits 3:1, `OK` in bit 0. -/
def statusWord (err : BitVec 3) (ok : BitVec 1) : Word32 := (0 : BitVec 28) ++ err ++ ok

/-- `STATUS` after a success: `OK` = 1, `ERR` = 0 (R29). -/
def statusSuccess : Word32 := statusWord 0 1

/-- `STATUS` after a failure of kind `k`: `OK` = 0, `ERR` = code(`k`) (R29, R204). -/
def statusFailure (k : ErrorKind) : Word32 := statusWord k.code 0

/-- Field `OK`, bit 0 (R28); it is also the boolean collapse (R206). -/
def statusOk (w : Word32) : BitVec 1 := w.extractLsb' 0 1

/-- Field `ERR`, bits 3:1 (R28). -/
def statusErr (w : Word32) : BitVec 3 := w.extractLsb' 1 3

/-- The possible values of the whole register (R28). -/
def legalStatusWords : List Word32 := [0x0, 0x1, 0x2, 0x4, 0x6, 0x8]

end Sys2Proof.Machine
end

