-- ==== Sys2Proof/Machine/Mapper.lean ====
section
/-! DEFINITION. The digit-to-character mapper (40_alphabet_mapper.md): the two ROMs built from `ALPHABET` (R31, R107) and the two lookups
`CharOf` (R102) and `DigitOf` (R103). -/

namespace Sys2Proof.Machine

/-- The alphabet ROM and the terminator of the built hardware (R31, R107, R7): constant, shared by all instances.
An entry of `DEC_ROM` is held as an optional digit, as R105 asks; `decRomBits` gives its 7 bits. Log 8. -/
structure Rom where
  /-- `ENC_ROM[0..63]`: entry `d` is `ALPHABET[d]` (R31). -/
  encRom : Vector Byte 64
  /-- `DEC_ROM[0..255]`: entry `c` is the digit of `c`, `none` the sentinel (R31, R105). -/
  decRom : Vector (Option Digit) 256
  /-- The parameter `TERMINATOR` (R7, R25). -/
  terminator : Byte
  deriving DecidableEq, Repr

/-- The digit of the symbol `c` in a list of symbols numbered from `k` on. -/
def symbolDigit (c : Byte) : Nat → List Byte → Option Digit
  | _, [] => none
  | k, x :: xs => if x = c then some (BitVec.ofNat 6 k) else symbolDigit c (k + 1) xs

/-- `DEC_ROM` as built from `ALPHABET` (R31, R107). -/
def decRomOf (alphabet : Vector Byte 64) : Vector (Option Digit) 256 :=
  ⟨((List.range 256).map (fun c => symbolDigit (BitVec.ofNat 8 c) 0 alphabet.toList)).toArray, by simp⟩

/-- The two ROMs built from an alphabet (R107). -/
def romOf (alphabet : Vector Byte 64) (terminator : Byte) : Rom :=
  { encRom := alphabet, decRom := decRomOf alphabet, terminator := terminator }

/-- Construction (R234, X7): hardware is built from a valid alphabet and from nothing else. -/
def constructRom (alphabet : Vector Byte 64) (terminator : Byte) : Option Rom :=
  if alphabetOk alphabet terminator then some (romOf alphabet terminator) else none

/-- The ROM of hardware that can be built: a valid alphabet, and `DEC_ROM` built from it (R100, R107). -/
abbrev Rom.wf (r : Rom) : Prop := alphabetOk r.encRom r.terminator = true ∧ r.decRom = decRomOf r.encRom

/-- `CharOf(d)` = `ENC_ROM[d]` (R102). -/
def Rom.charOf (r : Rom) (d : Digit) : Byte := r.encRom[d.toNat]'(d.isLt)

/-- `DigitOf(c)`, read from `DEC_ROM[c]` (R103); `none` is `NONE`. -/
def Rom.digitOf (r : Rom) (c : Byte) : Option Digit := r.decRom[c.toNat]'(c.isLt)

/-- A byte is a member when it has a digit (R75). -/
def Rom.isMember (r : Rom) (c : Byte) : Bool := (r.digitOf c).isSome

/-- The zero-symbol `Z0` (R106). -/
def Rom.zeroSymbol (r : Rom) : Byte := r.charOf 0

/-- The 7 bits of a `DEC_ROM` entry (R31): bit 6 set means "no member" (0x40), else bits 5:0 are the digit. -/
def decRomBits : Option Digit → BitVec 7
  | some d => (0 : BitVec 1) ++ d
  | none => 0x40

end Sys2Proof.Machine
end

