-- ==== Sys2Proof/Machine/State.lean ====
section
/-! DEFINITION. The state: the registers of every instance (10_state.md R20 to R30), the alphabet ROM (R31), the queue of host moves
and the replies to its reads; its value after reset (70_reset_and_hazards.md R231); the reasons a step can stop (60_exceptions.md R217). -/

namespace Sys2Proof.Machine

/-- One instance: its register block (R20). `CMD` has no storage (R30). -/
structure Engine where
  /-- `VAL` (R22). -/
  val : Value
  /-- `LEN` (R23). -/
  len : Word32
  /-- `TXT[0..11]` (R24). -/
  txt : Vector Byte 12
  /-- `STATUS` (R28). -/
  status : Word32
  /-- The model's own counter of unspecified values drawn by this instance (R11 "a fresh draw every time"); log 2. -/
  draws : Nat
  deriving DecidableEq, Repr

/-- The machine. Its instances (R7 `N_ENGINES`, R214) are `lower ++ eng :: upper` in the order of their numbers, cut at `eng`,
the one the latest access addressed (log 6). -/
structure State where
  /-- The alphabet ROM and the terminator, shared by all instances (R31, R108). -/
  rom : Rom
  /-- The instances numbered below `eng`, in order. -/
  lower : List Engine
  /-- The instance in focus: the commands act on it. -/
  eng : Engine
  /-- The instances numbered above `eng`, in order. -/
  upper : List Engine
  /-- The model's own: the host's accesses and the resets still to come (R247, R249); log 4. -/
  script : List Move
  /-- The model's own: what the host's reads returned, newest first (R52); log 5. -/
  replies : List RegValue
  deriving DecidableEq, Repr

/-- The reasons to stop with a fault: there is none, "Nothing is a fault, a stuck state or a hang" (R217). -/
inductive Fault where
  deriving DecidableEq, Repr

/-- The reasons to refuse a step (R217, R248). -/
inductive Refusal where
  /-- Raised by `exec` for an instruction without a meaning; no arm does so. Safe. -/
  | notModelled (mnemonic : String)
  /-- Raised by an access to index 4 to 15 or 28 and above (R54, X2). Safe. -/
  | reservedIndex (index : Nat)
  /-- Raised by a write of a word above 0x3 to `CMD` (R73, X1). Safe. -/
  | reservedCommand (word : Word32)
  /-- Raised by a write of a number that does not fit the register: R52 has no such access (log 10). Safe. -/
  | valueTooWide (index value : Nat)
  /-- Raised by a move that names an instance the machine does not have (R214; log 6). Safe. -/
  | noSuchInstance (inst : Nat)
  deriving DecidableEq, Repr

/-- An instance right after reset (R231): `STATUS` is 0 as the spec states. `VAL`, `LEN` and `TXT` are unspecified there; the zeros are
this model's DESIGN CHOICE (log 1, unsafe). -/
def Engine.atReset : Engine :=
  { val := 0, len := 0, txt := Vector.replicate 12 0, status := 0, draws := 0 }

/-- The machine with `n + 1` instances just out of reset, over a ROM (R7, R214). -/
def State.ofRom (rom : Rom) (n : Nat) : State :=
  { rom := rom, lower := [], eng := Engine.atReset, upper := List.replicate n Engine.atReset, script := [], replies := [] }

/-- The machine right after reset, every parameter of R7 at its default: `REF_ALPHABET`, terminator 0x00, one instance (log 6, log 7). -/
def State.reset : State := State.ofRom (romOf Config.refAlphabet Config.defaultTerminator) 0

/-- The number of the instance in focus. -/
def State.inst (s : State) : Nat := s.lower.length

/-- All instances, in the order of their numbers (R214). -/
def State.engines (s : State) : List Engine := s.lower ++ s.eng :: s.upper

end Sys2Proof.Machine
end

