-- ==== Sys2Proof/Machine/Operands.lean ====
section
/-! DEFINITION. The operands of the commands: implicit registers (30_encoding.md R72), the text in `TXT[0..LEN-1]` (10_state.md R24, R26) and its
order, first character most significant (20_memory.md R56). -/

namespace Sys2Proof.Machine

/-- The operand `value` of the encoders: `VAL` (R72). -/
def Engine.valueOperand (e : Engine) : Value := e.val

/-- The operand `length` of the decoders: all 32 bits of `LEN` as a number (R23, R72). -/
def Engine.lengthOperand (e : Engine) : Nat := e.len.toNat

/-- The operand `text` of the decoders: `TXT[0..LEN-1]` (R26, R72); looked at only after the length check. -/
def Engine.textOperand (e : Engine) : List Byte := e.txt.toList.take e.lengthOperand

/-- `TXT[i]` by number; a command uses indices 0 to 11 only (R24, R55, R63), and the 0 of any other is never used. -/
def Engine.txtAt (e : Engine) (i : Nat) : Byte := (e.txt[i]?).getD 0

end Sys2Proof.Machine
end

