-- ==== Sys2Proof/Machine/Ops.lean ====
section
/-! DEFINITION. The shared operations: host reads and writes of the registers (20_memory.md R52, R53), writing and reading a string, the ends of
the commands with the raising of an error (00_scope.md R11, 60_exceptions.md R204), reset (70_reset_and_hazards.md R230, R231) and the choice of an instance. -/

namespace Sys2Proof.Machine

/-- `HostRead` of a register: its whole content at its width; `CMD` reads as 0 (R52, R53). -/
def Engine.hostRead (e : Engine) : Reg → RegValue
  | .val => .w64 e.val
  | .len => .w32 e.len
  | .cmd => .w32 0
  | .status => .w32 e.status
  | .txt i => .w8 e.txt[i]

/-- `HostWrite` to `VAL` (R53). -/
def Engine.writeVal (v : Value) (e : Engine) : Engine := { e with val := v }

/-- `HostWrite` to `LEN` (R53). -/
def Engine.writeLen (n : Word32) (e : Engine) : Engine := { e with len := n }

/-- `HostWrite` to `STATUS` is ignored (R29, R53, D15). -/
def Engine.writeStatus (_v : Word32) (e : Engine) : Engine := e

/-- `HostWrite` to `TXT[i]` (R53). -/
def Engine.writeTxt (i : Fin 12) (b : Byte) (e : Engine) : Engine := { e with txt := e.txt.set i b }

/-- Writes the bytes of a list to consecutive text registers from index `i` on (R55). -/
def putBytes : Nat → List Byte → Vector Byte 12 → Vector Byte 12
  | _, [], t => t
  | i, b :: bs, t => putBytes (i + 1) bs (t.setIfInBounds i b)

/-- The characters of extracted digits, in the reverse order of extraction: most significant first (R123). -/
def Rom.spell (r : Rom) (extracted : List Digit) : List Byte := extracted.reverse.map r.charOf

/-- The digits of a string, most significant first; `none` as soon as a byte is no member (R141, R161, phase ValidatingCharacters). -/
def Rom.lookupAll (r : Rom) : List Byte → Option (List Digit)
  | [] => some []
  | c :: cs =>
    match r.digitOf c with
    | none => none
    | some d =>
      match r.lookupAll cs with
      | none => none
      | some ds => some (d :: ds)

/-- The end of an encoder that produced the characters `cs` (R25, R140, R160): the characters, then `TERMINATOR`, the rest of `TXT`
unchanged; `LEN` the count, zero-extended; `STATUS` success. -/
def Engine.finishEncode (terminator : Byte) (cs : List Byte) (e : Engine) : Engine :=
  { e with txt := putBytes 0 (cs ++ [terminator]) e.txt, len := BitVec.ofNat 32 cs.length, status := statusSuccess }

/-- `succeed(v)` (R11). -/
def Engine.succeed (v : Value) (e : Engine) : Engine := { e with val := v, status := statusSuccess }

/-- `raise K` on instance `inst` (R11, R204): `STATUS` gets the kind, `VAL` a new unspecified value (log 2), nothing else is written. It is the
only exceptional event; there is no handler, nothing is saved, and so there is no return from it (R204, R207). -/
def Engine.raise (inst : Nat) (k : ErrorKind) (e : Engine) : Engine :=
  { e with status := statusFailure k, val := Config.unspec64 inst e.draws, draws := e.draws + 1 }

/-- The end of a decoder: one of the outcomes of the sequencer (R180, R181). -/
def Engine.finishDecode (inst : Nat) (outcome : Except ErrorKind Value) (e : Engine) : Engine :=
  match outcome with
  | .ok v => e.succeed v
  | .error k => e.raise inst k

/-- Phase Accumulating and the success after it (R180): the value, or `OutOfRange` at the first step that overflows. -/
def accumulateOutcome (ds : List Digit) : Except ErrorKind Value :=
  match accumulate 0 ds with
  | none => .error .outOfRange
  | some v => .ok v

/-- A reset of instance `inst` in a run (R230, R231): `STATUS` 0, the data registers unspecified, that is free values (log 3). -/
def Engine.reset (inst : Nat) (e : Engine) : Engine :=
  { val := Config.resetVal inst e.draws
    len := Config.resetLen inst e.draws
    txt := Vector.ofFn (fun i => Config.resetTxt inst e.draws i.val)
    status := 0
    draws := e.draws + 1 }

/-- Replaces the instance in focus. -/
def State.setEng (s : State) (e : Engine) : State := { s with eng := e }

/-- Hands a read value to the host (R52; log 5). -/
def State.reply (s : State) (v : RegValue) : State := { s with replies := v :: s.replies }

/-- Cuts the list of instances at number `k`, `none` when there is no such instance (R214; log 6). -/
def State.focus (k : Nat) (s : State) : Option State :=
  match s.engines.drop k with
  | [] => none
  | e :: above => some { s with lower := s.engines.take k, eng := e, upper := above }

end Sys2Proof.Machine
end

