-- ==== Sys2Proof/Machine/Fixed.lean ====
section
/-! DEFINITION. The fixed codec (42_fixed_codec.md): the meanings of `ENCF` (R140) and `DECF` (R141). -/

namespace Sys2Proof.Machine

/-- `ENCF` (R140): eleven divider steps, the characters in reverse order, the terminator at `TXT[11]`, `LEN` 11, `STATUS` 1. -/
def execEncf (s : State) : Host.Outcome State Fault Refusal :=
  .next (s.setEng (s.eng.finishEncode s.rom.terminator
    (s.rom.spell (extractDigits Config.fixedWidth s.eng.valueOperand))))

/-- The outcome of `DECF` (R141), its checks in the order of R180: length, characters, accumulation. This order forces the restrictions of R188. -/
def decodeFixed (rom : Rom) (e : Engine) : Except ErrorKind Value :=
  if e.lengthOperand ≠ Config.fixedWidth then .error .invalidLength
  else
    match rom.lookupAll e.textOperand with
    | none => .error .invalidCharacter
    | some ds => accumulateOutcome ds

/-- `DECF` (R141). -/
def execDecf (s : State) : Host.Outcome State Fault Refusal :=
  .next (s.setEng (s.eng.finishDecode s.inst (decodeFixed s.rom s.eng)))

end Sys2Proof.Machine
end

