-- ==== Sys2Proof/Machine/Variable.lean ====
section
/-! DEFINITION. The variable codec (43_variable_codec.md): the meanings of `ENCV` (R160) and `DECV` (R161). -/

namespace Sys2Proof.Machine

/-- `ENCV` (R160): divider steps until nothing remains, the characters in reverse order, the terminator after them, `LEN` their
count, `STATUS` 1; later bytes of `TXT` unchanged. -/
def execEncv (s : State) : Host.Outcome State Fault Refusal :=
  .next (s.setEng (s.eng.finishEncode s.rom.terminator
    (s.rom.spell (extractUntilZero Config.maxIter s.eng.valueOperand))))

/-- The length check of `DECV`: 1 to 11, all 32 bits compared (R161, D21, D27). -/
def variableLengthOk (n : Nat) : Bool := decide (Config.minLen ≤ n) && decide (n ≤ Config.maxLen)

/-- The canonical-form check fails: more than one character, and the first is the zero-symbol (R161, R163). -/
def nonCanonical : List Digit → Bool
  | d :: _ :: _ => d == 0
  | _ => false

/-- The outcome of `DECV` (R161), its checks in the order of R180: length, characters, canonical form, accumulation. This order
forces the restrictions of R188. -/
def decodeVariable (rom : Rom) (e : Engine) : Except ErrorKind Value :=
  if variableLengthOk e.lengthOperand = false then .error .invalidLength
  else
    match rom.lookupAll e.textOperand with
    | none => .error .invalidCharacter
    | some ds => if nonCanonical ds then .error .invalidFormat else accumulateOutcome ds

/-- `DECV` (R161). -/
def execDecv (s : State) : Host.Outcome State Fault Refusal :=
  .next (s.setEng (s.eng.finishDecode s.inst (decodeVariable s.rom s.eng)))

end Sys2Proof.Machine
end

