-- ==== Sys2Proof/Machine/Dispatch.lean ====
section
/-! DEFINITION. The four commands, one arm each (30_encoding.md R71). -/

namespace Sys2Proof.Machine

def exec (i : Instr) (s : State) : Host.Outcome State Fault Refusal :=
  match i with
  | .encf => Sys2Proof.Machine.execEncf s
  | .decf => Sys2Proof.Machine.execDecf s
  | .encv => Sys2Proof.Machine.execEncv s
  | .decv => Sys2Proof.Machine.execDecv s

end Sys2Proof.Machine
end

