-- ==== Sys2Proof/Machine/HostPort.lean ====
section
/-! DEFINITION. What one move of a run does (70_reset_and_hazards.md R247, R248): a host access (20_memory.md R52 to R54), a write to `CMD` running its
command whole (R58), a reset (R230). -/

namespace Sys2Proof.Machine

/-- The refusal of a triple that is no access of the spec (R54, R73, R248). -/
def refusalOf : Reject → Refusal
  | .reservedIndex r => .reservedIndex r
  | .valueTooWide r v => .valueTooWide r v
  | .reservedCommand w => .reservedCommand w

/-- One access of the host to the instance in focus (R53): a read returns the register and changes nothing else, a write changes its
register only, a write of a command word to `CMD` runs the command (R30, R58). -/
def runLine (s : State) : Line → Host.Outcome State Fault Refusal
  | .wrVal v => .next (s.setEng (s.eng.writeVal v))
  | .wrLen n => .next (s.setEng (s.eng.writeLen n))
  | .wrStatus v => .next (s.setEng (s.eng.writeStatus v))
  | .wrTxt i b => .next (s.setEng (s.eng.writeTxt i b))
  | .cmd m => exec m s
  | .rd r => .next (s.reply (s.eng.hostRead r))

/-- A triple on the instance in focus: decoded, and refused by name when the spec gives it no meaning (R54, R73). -/
def runAccess (s : State) (a : RawAccess) : Host.Outcome State Fault Refusal :=
  match decodeAccess a with
  | .ok l => runLine s l
  | .error r => .refused (refusalOf r)

/-- One move (R247): the instance it names comes into focus, then the access or the reset happens there. -/
def runMove (s : State) : Move → Host.Outcome State Fault Refusal
  | .access k a =>
    match s.focus k with
    | none => .refused (.noSuchInstance k)
    | some t => runAccess t a
  | .reset k =>
    match s.focus k with
    | none => .refused (.noSuchInstance k)
    | some t => .next (t.setEng (t.eng.reset t.inst))

/-- The move that writes the low `nbits` bits of `w` to `CMD` of instance `k`. -/
def commandMove (k nbits w : Nat) : Move := .access k (.write 2 (w % 2 ^ nbits))

end Sys2Proof.Machine
end

