-- ==== Sys2Proof/Machine/Step.lean ====
section
/-! DEFINITION. One step: the next move of the host's script (70_reset_and_hazards.md R247, R249); with no move left the engine is idle and holds its
registers (60_exceptions.md R216). -/

namespace Sys2Proof.Machine

/-- One step (log 4). -/
def step (s : State) : Host.Outcome State Fault Refusal :=
  match s.script with
  | [] => .next s
  | m :: rest => runMove { s with script := rest } m

/-- The state whose next move writes the command word made of the low `nbits` bits of `w` to `CMD` of the instance in focus (log 4). -/
def State.withFetchWord (s : State) (nbits w : Nat) : State :=
  { s with script := commandMove s.inst nbits w :: s.script }

end Sys2Proof.Machine
end

