-- ==== Sys2Proof/Machine/Sequencer.lean ====
section
/-! DEFINITION. The sequencers of the commands, phase by phase over the internal working state (10_state.md R27, R32; 44_sequencer_and_laws.md R180,
R184), and the one-pass decoders R183 speaks of. No meaning uses this file: statements tie it to the meanings (log 9). -/

namespace Sys2Proof.Machine

/-- The phases: those of the decoders (R180), the four failures as one constructor each of `ErrorKind`, and those of the encoders (R184). -/
inductive Phase where
  | start
  | validatingLength
  | validatingCharacters
  | accumulating
  | success
  | failed (k : ErrorKind)
  | extracting
  | mapping
  | done
  deriving DecidableEq, Repr

/-- The internal working state, every register at the width R32 gives it. (`wide` is inside `mulAdd64`.) -/
structure Working where
  phase : Phase
  acc : Value
  rem : Value
  dig : Vector Digit 11
  cnt : BitVec 4
  i : BitVec 4
  deriving DecidableEq, Repr

/-- `dig[i]` by number; the sequencers use indices 0 to 10 only (R32). -/
def Working.digAt (w : Working) (i : Nat) : Digit := (w.dig[i]?).getD 0

/-- Phase 1 of R180: the length is admissible, for the fixed or the variable decoder. -/
def lengthAdmissible (var : Bool) (n : Nat) : Bool :=
  if var then variableLengthOk n else decide (n = Config.fixedWidth)

/-- One step of a decoder's sequencer (R180); a final phase is kept (R181). -/
def decoderStep (rom : Rom) (var : Bool) (e : Engine) (w : Working) : Working :=
  match w.phase with
  | .start => { w with phase := .validatingLength, acc := 0, i := 0 }
  | .validatingLength =>
    if lengthAdmissible var e.lengthOperand then { w with phase := .validatingCharacters }
    else { w with phase := .failed .invalidLength }
  | .validatingCharacters =>
    if w.i.toNat < e.lengthOperand then
      match rom.digitOf (e.txtAt w.i.toNat) with
      | none => { w with phase := .failed .invalidCharacter }
      | some d => { w with dig := w.dig.setIfInBounds w.i.toNat d, i := w.i + 1 }
    else if var && decide (1 < e.lengthOperand) && w.digAt 0 == 0 then { w with phase := .failed .invalidFormat }
    else { w with phase := .accumulating, i := 0 }
  | .accumulating =>
    if w.i.toNat < e.lengthOperand then
      if (mulAdd64 w.acc (w.digAt w.i.toNat)).1 then { w with phase := .failed .outOfRange }
      else { w with acc := (mulAdd64 w.acc (w.digAt w.i.toNat)).2, i := w.i + 1 }
    else { w with phase := .success }
  | .success => w
  | .failed _ => w
  | .extracting => w
  | .mapping => w
  | .done => w

/-- What a final phase of a decoder answers (R180, R181). -/
def Working.verdict (w : Working) : Option (Except ErrorKind Value) :=
  match w.phase with
  | .success => some (.ok w.acc)
  | .failed k => some (.error k)
  | .start => none
  | .validatingLength => none
  | .validatingCharacters => none
  | .accumulating => none
  | .extracting => none
  | .mapping => none
  | .done => none

/-- An upper bound on a decoder's sequencer steps: start, length, 11 lookups and their end, 11 accumulations and their end (R133). -/
def decoderBound : Nat := 2 + (Config.maxIter + 1) + (Config.maxIter + 1)

/-- One step of an encoder's sequencer (R184) on its working state and the instance's registers. -/
def encoderStep (rom : Rom) (var : Bool) (p : Working × Engine) : Working × Engine :=
  let w := p.1
  let e := p.2
  match w.phase with
  | .start => ({ w with phase := .extracting, rem := e.valueOperand, cnt := 0 }, e)
  | .extracting =>
    let last := if var then decide ((divMod64 w.rem).1 = 0) else decide (w.cnt.toNat + 1 = Config.fixedWidth)
    ({ w with
        phase := if last then .mapping else .extracting
        rem := (divMod64 w.rem).1
        dig := w.dig.setIfInBounds w.cnt.toNat (divMod64 w.rem).2
        cnt := w.cnt + 1
        i := 0 }, e)
  | .mapping =>
    if w.i.toNat < w.cnt.toNat then
      ({ w with i := w.i + 1 },
       { e with txt := e.txt.setIfInBounds w.i.toNat (rom.charOf (w.digAt (w.cnt.toNat - 1 - w.i.toNat))) })
    else
      ({ w with phase := .done },
       { e with txt := e.txt.setIfInBounds w.cnt.toNat rom.terminator, len := w.cnt.setWidth 32, status := statusSuccess })
  | .validatingLength => p
  | .validatingCharacters => p
  | .accumulating => p
  | .success => p
  | .failed _ => p
  | .done => p

/-- An upper bound on an encoder's sequencer steps: start, 11 divider steps, 11 characters and their end (R133). -/
def encoderBound : Nat := 1 + Config.maxIter + (Config.maxIter + 1)

/-- The plain one-pass loop of a decoder (R183): look up a character, accumulate it, go on. -/
def onePass (rom : Rom) (acc : Value) : List Byte → Except ErrorKind Value
  | [] => .ok acc
  | c :: cs =>
    match rom.digitOf c with
    | none => .error .invalidCharacter
    | some d =>
      if (mulAdd64 acc d).1 then .error .outOfRange
      else onePass rom (mulAdd64 acc d).2 cs

/-- `DECF` as one pass (R183). -/
def decodeFixedOnePass (rom : Rom) (e : Engine) : Except ErrorKind Value :=
  if e.lengthOperand ≠ Config.fixedWidth then .error .invalidLength else onePass rom 0 e.textOperand

/-- `DECV` as one pass that raises `InvalidFormat` as soon as it sees the leading zero-symbol: R183 says it is wrong. -/
def decodeVariableEager (rom : Rom) (e : Engine) : Except ErrorKind Value :=
  if variableLengthOk e.lengthOperand = false then .error .invalidLength
  else
    match e.textOperand with
    | c :: _ :: _ => if c = rom.zeroSymbol then .error .invalidFormat else onePass rom 0 e.textOperand
    | _ => onePass rom 0 e.textOperand

end Sys2Proof.Machine
end

