-- ==== Sys2Proof/Safety.lean ====
section
/-! DEFINITION. The terms the claims use: what a safe run is (60_exceptions.md R217, 70_reset_and_hazards.md R249), the invariant of the machine, and the
words of the outcome tables (44_sequencer_and_laws.md R193). -/

namespace Sys2Proof.Machine

/-- The step had a next state: it was not refused (R249: "a run in which a refused access occurred has no final state"). -/
def completed : Host.Outcome State Fault Refusal → Bool
  | .next _ => true
  | .fault _ => false
  | .refused _ => false

/-- `STATUS` holds one of its possible values (R28). -/
abbrev Engine.statusLegal (e : Engine) : Prop := e.status ∈ legalStatusWords

/-- The invariant of the machine: a ROM that can be built (R100, R107), and a possible `STATUS` in every instance (R28). -/
abbrev State.Inv (s : State) : Prop := s.rom.wf ∧ ∀ e ∈ s.engines, e.statusLegal

/-- "`M`" of R193: every one of `TXT[0..LEN-1]` is a member. -/
abbrev Engine.allMembers (r : Rom) (e : Engine) : Prop := ∀ i, i < e.len.toNat → r.isMember (e.txtAt i) = true

/-- The length check of a command (R180): 11 for `DECF`, 1 to 11 for `DECV`; the encoders have none. -/
abbrev lengthCheckPasses : Instr → Nat → Prop
  | .decf, n => n = 11
  | .decv, n => 1 ≤ n ∧ n ≤ 11
  | .encf, _ => True
  | .encv, _ => True

/-- The canonical-form check of a command fails (R180): made by `DECV` only. -/
abbrev paddedFor (i : Instr) (s : State) : Prop :=
  i = .decv ∧ 1 < s.eng.len.toNat ∧ s.eng.txtAt 0 = s.rom.zeroSymbol

/-- The digit `d_i` of the text, 0 where the byte is no member. -/
def Engine.digitAt (r : Rom) (e : Engine) (i : Nat) : Digit := (r.digitOf (e.txtAt i)).getD 0

/-- The value of the text: the sum of `d_i * 64^(LEN-1-i)` for `i < LEN` (R127, R193). -/
def Engine.textValue (r : Rom) (e : Engine) : Nat :=
  ∑ i ∈ Finset.range e.len.toNat, (e.digitAt r i).toNat * weight e.len.toNat i

/-- The restriction that the order of the checks puts on a rejection property of the source (44_sequencer_and_laws.md R188, third column): none for the
length, an admissible length for the characters, length 2 to 11 and members only for the canonical form, 11 members for the overflow. -/
def rejectionRestriction (m : Instr) (s : State) : ErrorKind → Prop
  | .invalidLength => True
  | .invalidCharacter => lengthCheckPasses m s.eng.len.toNat
  | .invalidFormat => 2 ≤ s.eng.len.toNat ∧ s.eng.len.toNat ≤ 11 ∧ s.eng.allMembers s.rom
  | .outOfRange => s.eng.len.toNat = 11 ∧ s.eng.allMembers s.rom

/-- What a rejection property of the source speaks of (R188, first column, in the words of R189 to R192): a length the decoder does not take, a character that is no
member, for `DECV` a leading zero-symbol on a string longer than 1, a value that does not fit in 64 bits. -/
def rejectionCause (m : Instr) (s : State) : ErrorKind → Prop
  | .invalidLength => ¬ lengthCheckPasses m s.eng.len.toNat
  | .invalidCharacter => ∃ i, i < s.eng.len.toNat ∧ s.rom.digitOf (s.eng.txtAt i) = none
  | .invalidFormat => paddedFor m s
  | .outOfRange => 2 ^ 64 ≤ s.eng.textValue s.rom

/-- The command ends with the error whose `STATUS` word is `w`: `VAL` holds some value, the model's counter of draws some number, and every
other component of the state, every other register and instance among them, is as before (R204). -/
abbrev endsWithError (i : Instr) (s : State) (w : Word32) : Prop :=
  ∃ u d, exec i s = .next (s.setEng { s.eng with status := w, val := u, draws := d })

/-- The command succeeds with the value `v`: `VAL` is `v`, `STATUS` is 0x00000001, and every other component of the state is as before (R11). -/
abbrev succeedsWith (i : Instr) (s : State) (v : Value) : Prop :=
  exec i s = .next (s.setEng { s.eng with status := 0x00000001, val := v })

/-- `u` holds the string that stands in `t`, over the same ROM: the same `LEN` and the same `TXT[0..LEN-1]`. Nothing else of the two need agree, so
`VAL`, `STATUS` and the rest of `TXT` may differ (R26; R166 "the `TXT` and `LEN` it left"). -/
abbrev holdsStringOf (t u : State) : Prop :=
  u.rom = t.rom ∧ u.eng.len = t.eng.len ∧ ∀ i, i < t.eng.len.toNat → u.eng.txtAt i = t.eng.txtAt i

/-- The command has a next state with property `p`. -/
abbrev endsIn (i : Instr) (s : State) (p : State → Prop) : Prop := ∃ t, exec i s = .next t ∧ p t

end Sys2Proof.Machine
end

