-- ==== Sys2Proof/Certificates/Slice0/Obligations.lean ====
section
/-! DEFINITION. The statements for the provers, each over the machine of Sys2Proof/Machine and none about a program. "The focus" is the instance
a command acts on. A free value (log 2, log 3) is named by no statement: where one arises the statement says "some value". -/

open Sys2Proof Sys2Proof.Machine

/-! ## Decoding and the host's accesses -/

/-- R71: the four words decode to their commands, and every other word of 32 bits is reserved. -/
def Obligations.CommandWordsDecode : Prop :=
  decodeCommand 0x00000000 = .ok .encf ∧ decodeCommand 0x00000001 = .ok .decf ∧
  decodeCommand 0x00000002 = .ok .encv ∧ decodeCommand 0x00000003 = .ok .decv ∧
  ∀ w : Word32, 3 < w.toNat → decodeCommand w = .error (.reservedCommand w)

/-- R82 with R51, R70 and R71: decoding the triple of a host access gives the access, with every value at every width, every text index and every
command; and a triple that decodes to an access is the triple of that access. -/
def Obligations.AccessTripleRoundTrip : Prop :=
  (∀ l : Line, decodeAccess (encodeLine l) = .ok l) ∧
  ∀ (a : RawAccess) (l : Line), decodeAccess a = .ok l → encodeLine l = a

/-- R30, R52, R58, R247: when the next move is an access to instance `k`, the step does what the decoded access does on the state whose script has lost
that move and whose focus is instance `k`; for a 32-bit command word written to `CMD` that is `exec` of the decoded command, and so it is for the word
`withFetchWord` places. With no move left the step changes nothing. The script is the model's own way to hold the host's accesses (log 4). -/
def Obligations.StepRunsDecodedAccess : Prop :=
  (∀ (s t : State) (k : Nat) (a : RawAccess) (l : Line) (rest : List Move),
    s.script = .access k a :: rest → decodeAccess a = .ok l →
    t.engines = s.engines → t.inst = k → t.rom = s.rom → t.script = rest → t.replies = s.replies →
    step s = runLine t l) ∧
  (∀ (s t : State) (k w : Nat) (rest : List Move) (m : Instr),
    s.script = .access k (.write 2 w) :: rest → w < 2 ^ 32 → decodeCommand (BitVec.ofNat 32 w) = .ok m →
    t.engines = s.engines → t.inst = k → t.rom = s.rom → t.script = rest → t.replies = s.replies →
    step s = exec m t) ∧
  (∀ (s : State) (m : Instr), step (s.withFetchWord 32 (encode m).toNat) = exec m s) ∧
  ∀ s : State, s.script = [] → step s = .next s

/-- R73: a write of a reserved word to `CMD` is refused, and the refusal stays for the whole run. -/
def Obligations.ReservedCommandIsRefused : Prop :=
  ∀ (s : State) (k : Nat) (w : Word32) (rest : List Move) (n : Nat),
    s.script = .access k (.write 2 w.toNat) :: rest → k < s.engines.length → w.extractLsb' 2 30 ≠ 0 →
    step s = .refused (.reservedCommand w) ∧ Sys2Proof.core.run (n + 1) s = .refused (.reservedCommand w)

/-- R54: a read or a write, of any value, of a reserved index 4 to 15 or 28 and above is refused. -/
def Obligations.ReservedIndexIsRefused : Prop :=
  ∀ (s : State) (k r v : Nat) (rest : List Move),
    k < s.engines.length → ((4 ≤ r ∧ r ≤ 15) ∨ 28 ≤ r) →
    (s.script = .access k (.read r) :: rest → step s = .refused (.reservedIndex r)) ∧
    (s.script = .access k (.write r v) :: rest → step s = .refused (.reservedIndex r))

/-- R248, R217: a step has a next state exactly when the script is over or its next move is one the spec admits on this machine. That values
too wide and instances that do not exist are refused is the model's choice (log 6, log 10); that an ended script leaves the machine idle is log 4. -/
def Obligations.StepCompletesExactlyOnAdmittedMoves : Prop :=
  ∀ s : State, (∃ t, step s = .next t) ↔
    s.script = [] ∨ ∃ m rest, s.script = m :: rest ∧ m.wf s.engines.length = true

/-- R53, R59: what a read returns: the register of the focus at its width, `CMD` as 0; it changes nothing but the host's list of replies (log 5),
and a second read returns the same. -/
def Obligations.HostReadReturnsRegister : Prop :=
  ∀ (s : State) (r : Reg), ∃ v,
    runLine s (.rd r) = .next (s.reply v) ∧ runLine (s.reply v) (.rd r) = .next ((s.reply v).reply v) ∧
    (r = .val → v = .w64 s.eng.val) ∧ (r = .len → v = .w32 s.eng.len) ∧ (r = .cmd → v = .w32 0) ∧
    (r = .status → v = .w32 s.eng.status) ∧ ∀ i : Fin 12, r = .txt i → v = .w8 s.eng.txt[i]

/-- R53: a write of `VAL`, `LEN` or `TXT[i]` changes that register of the focus only; a write of `STATUS` changes nothing. -/
def Obligations.HostWriteChangesOneRegister : Prop :=
  ∀ s : State,
    (∀ v, runLine s (.wrVal v) = .next { s with eng := { s.eng with val := v } }) ∧
    (∀ n, runLine s (.wrLen n) = .next { s with eng := { s.eng with len := n } }) ∧
    (∀ v, runLine s (.wrStatus v) = .next s) ∧
    ∀ (i : Fin 12) (b : Byte), ∃ t, runLine s (.wrTxt i b) = .next t ∧
      t = { s with eng := { s.eng with txt := t.eng.txt } } ∧
      t.eng.txt[i] = b ∧ ∀ j : Fin 12, j ≠ i → t.eng.txt[j] = s.eng.txt[j]

/-! ## The encoders -/

/-- R140 with R76 and R25: `ENCF` completes from every state. `TXT[i]` becomes the character of digit `(VAL div 64^(10-i)) mod 64` for `i` up to 10,
`TXT[11]` the terminator, `LEN` 11, `STATUS` 0x1; everything else, `VAL` and the other instances among it, is unchanged. -/
def Obligations.EncfResult : Prop :=
  ∀ s : State, exec .encf s = .next (s.setEng { s.eng with
    txt := Vector.ofFn (fun i : Fin 12 =>
      if i.val < 11 then s.rom.charOf (BitVec.ofNat 6 (s.eng.val.toNat / 64 ^ (10 - i.val) % 64)) else s.rom.terminator)
    len := 11
    status := 0x00000001 })

/-- R160 with R78 and R25: `ENCV` completes from every state. With `n` the least number of digits, at least 1, that holds `VAL`: `TXT[i]` becomes the
character of digit `(VAL div 64^(n-1-i)) mod 64` for `i < n`, `TXT[n]` the terminator, later bytes keep their contents, `LEN` is `n`, `STATUS` 0x1;
everything else is unchanged. -/
def Obligations.EncvResult : Prop :=
  ∀ (s : State) (n : Nat), 1 ≤ n → s.eng.val.toNat < 64 ^ n → (∀ m, 1 ≤ m → m < n → 64 ^ m ≤ s.eng.val.toNat) →
    exec .encv s = .next (s.setEng { s.eng with
      txt := Vector.ofFn (fun i : Fin 12 =>
        if i.val < n then s.rom.charOf (BitVec.ofNat 6 (s.eng.val.toNat / 64 ^ (n - 1 - i.val) % 64))
        else if i.val = n then s.rom.terminator else s.eng.txt[i])
      len := BitVec.ofNat 32 n
      status := 0x00000001 })

/-- R145: after `ENCF`, over a ROM that can be built, `LEN` is 11, every one of the 11 characters is a member, and the terminator stands in `TXT[11]`. -/
def Obligations.EncfWritesElevenMembers : Prop :=
  ∀ s : State, s.rom.wf → endsIn .encf s (fun t =>
    t.eng.len = 11 ∧ (∀ i, i < 11 → s.rom.digitOf (t.eng.txtAt i) ≠ none) ∧ t.eng.txtAt 11 = s.rom.terminator)

/-- R165: `ENCV` returns length 1 for 0, else the smallest `n` with `64^n > VAL`; and no decoder, from any state over the same ROM, gets the same value
from a shorter string. -/
def Obligations.EncvIsMinimal : Prop :=
  ∀ s : State, s.rom.wf → endsIn .encv s (fun t =>
    (s.eng.val = 0 → t.eng.len = 1) ∧
    (s.eng.val ≠ 0 → s.eng.val.toNat < 64 ^ t.eng.len.toNat ∧
      ∀ m, m < t.eng.len.toNat → 64 ^ m ≤ s.eng.val.toNat) ∧
    ∀ (u : State) (i : Instr), u.rom = s.rom → (i = .decf ∨ i = .decv) → succeedsWith i u s.eng.val →
      t.eng.len.toNat ≤ u.eng.len.toNat)

/-- The padding relation (30_encoding.md R81, which the spec marks derived): with `n` the length `ENCV` returns, the string of `ENCF` is `11 - n`
zero-symbols and then the string of `ENCV`; and the two strings coincide exactly for values from 2^60 on. -/
def Obligations.FixedIsPaddedVariable : Prop :=
  ∀ s : State, endsIn .encf s (fun f => endsIn .encv s (fun v =>
    (∀ i, i < 11 - v.eng.len.toNat → f.eng.txtAt i = s.rom.zeroSymbol) ∧
    (∀ i, i < v.eng.len.toNat → f.eng.txtAt (11 - v.eng.len.toNat + i) = v.eng.txtAt i) ∧
    (f.eng.textOperand = v.eng.textOperand ↔ 2 ^ 60 ≤ s.eng.val.toNat)))

/-! ## The decoders -/

/-- `DECF` is complete (R141; the table of R193, which the spec marks derived): `InvalidLength` unless `LEN` is 11, else `InvalidCharacter` unless all
11 characters are members, else `OutOfRange` when the first digit is 16 or more, else success with the value of the digits. In every case nothing else
changes but, after an error, `VAL` and the model's counter of draws (log 2). -/
def Obligations.DecfOutcome : Prop :=
  ∀ s : State,
    (s.eng.len.toNat ≠ 11 → endsWithError .decf s 0x00000002) ∧
    (s.eng.len.toNat = 11 → ¬ s.eng.allMembers s.rom → endsWithError .decf s 0x00000004) ∧
    (s.eng.len.toNat = 11 → s.eng.allMembers s.rom → 16 ≤ (s.eng.digitAt s.rom 0).toNat →
      endsWithError .decf s 0x00000008) ∧
    (s.eng.len.toNat = 11 → s.eng.allMembers s.rom → (s.eng.digitAt s.rom 0).toNat ≤ 15 →
      s.eng.textValue s.rom < 2 ^ 64 ∧ succeedsWith .decf s (BitVec.ofNat 64 (s.eng.textValue s.rom)))

/-- `DECV` is complete (R161; the table of R193, which the spec marks derived), its rows in the table's order. -/
def Obligations.DecvOutcome : Prop :=
  ∀ s : State,
    (s.eng.len.toNat = 0 ∨ 11 < s.eng.len.toNat → endsWithError .decv s 0x00000002) ∧
    (1 ≤ s.eng.len.toNat → s.eng.len.toNat ≤ 11 → ¬ s.eng.allMembers s.rom → endsWithError .decv s 0x00000004) ∧
    (2 ≤ s.eng.len.toNat → s.eng.len.toNat ≤ 11 → s.eng.allMembers s.rom → s.eng.digitAt s.rom 0 = 0 →
      endsWithError .decv s 0x00000006) ∧
    (s.eng.len.toNat = 11 → s.eng.allMembers s.rom → 16 ≤ (s.eng.digitAt s.rom 0).toNat →
      endsWithError .decv s 0x00000008) ∧
    (s.eng.len.toNat = 1 → s.eng.allMembers s.rom → succeedsWith .decv s ((s.eng.digitAt s.rom 0).setWidth 64)) ∧
    (2 ≤ s.eng.len.toNat → s.eng.len.toNat ≤ 10 → s.eng.allMembers s.rom → 1 ≤ (s.eng.digitAt s.rom 0).toNat →
      s.eng.textValue s.rom < 2 ^ 64 ∧ succeedsWith .decv s (BitVec.ofNat 64 (s.eng.textValue s.rom))) ∧
    (s.eng.len.toNat = 11 → s.eng.allMembers s.rom → 1 ≤ (s.eng.digitAt s.rom 0).toNat →
      (s.eng.digitAt s.rom 0).toNat ≤ 15 →
      s.eng.textValue s.rom < 2 ^ 64 ∧ succeedsWith .decv s (BitVec.ofNat 64 (s.eng.textValue s.rom)))

/-- R190: `DECF` ends with `InvalidLength` exactly when `LEN` is not 11; `DECV` exactly when `LEN` is 0 or above 11. -/
def Obligations.LengthRejection : Prop :=
  ∀ s : State,
    endsIn .decf s (fun t => t.eng.status = 0x00000002 ↔ s.eng.len ≠ 11) ∧
    endsIn .decv s (fun t => t.eng.status = 0x00000002 ↔ (s.eng.len = 0 ∨ 11 < s.eng.len.toNat))

/-- R192: a decoder whose length check passes ends with `InvalidCharacter` exactly when at least one of the `LEN` characters is a non-member. -/
def Obligations.CharacterRejection : Prop :=
  ∀ s : State,
    (s.eng.len.toNat = 11 → endsIn .decf s (fun t =>
      t.eng.status = 0x00000004 ↔ ∃ i, i < 11 ∧ s.rom.digitOf (s.eng.txtAt i) = none)) ∧
    (1 ≤ s.eng.len.toNat → s.eng.len.toNat ≤ 11 → endsIn .decv s (fun t =>
      t.eng.status = 0x00000004 ↔ ∃ i, i < s.eng.len.toNat ∧ s.rom.digitOf (s.eng.txtAt i) = none))

/-- R189: `DECV` ends with `InvalidFormat` exactly when `LEN` is 2 to 11, every character is a member and the first is the zero-symbol; `DECF` never does. -/
def Obligations.CanonicalRejection : Prop :=
  ∀ s : State, s.rom.wf →
    endsIn .decv s (fun t => t.eng.status = 0x00000006 ↔
      (2 ≤ s.eng.len.toNat ∧ s.eng.len.toNat ≤ 11 ∧ s.eng.allMembers s.rom ∧ s.eng.txtAt 0 = s.rom.zeroSymbol)) ∧
    endsIn .decf s (fun t => t.eng.status ≠ 0x00000006)

/-- R191: each decoder ends with `OutOfRange` exactly when `LEN` is 11, all 11 characters are members and the first digit is 16 or more; so do, in
particular, eleven copies of the symbol of digit 63 and eleven of digit 62. -/
def Obligations.OverflowRejection : Prop :=
  ∀ s : State, s.rom.wf → ∀ m : Instr, m = .decf ∨ m = .decv → endsIn m s (fun t =>
    (t.eng.status = 0x00000008 ↔
      (s.eng.len = 11 ∧ s.eng.allMembers s.rom ∧ ∃ d, s.rom.digitOf (s.eng.txtAt 0) = some d ∧ 16 ≤ d.toNat)) ∧
    ∀ d : Digit, d = 63 ∨ d = 62 → s.eng.len = 11 → (∀ i, i < 11 → s.eng.txtAt i = s.rom.charOf d) →
      t.eng.status = 0x00000008)

/-- R203 with R180: the code a decoder reports is that of the first violated condition in the order length, characters, canonical form (`DECV` only),
range; the conditions are stated each by itself, as violations of the operands. -/
def Obligations.FirstViolationIsReported : Prop :=
  ∀ (s : State) (m : Instr), s.rom.wf → (m = .decf ∨ m = .decv) →
    endsIn m s (fun t =>
      (t.eng.status = 0x00000002 ↔ ¬ lengthCheckPasses m s.eng.len.toNat) ∧
      (t.eng.status = 0x00000004 ↔ lengthCheckPasses m s.eng.len.toNat ∧ ¬ s.eng.allMembers s.rom) ∧
      (t.eng.status = 0x00000006 ↔ lengthCheckPasses m s.eng.len.toNat ∧ s.eng.allMembers s.rom ∧ paddedFor m s) ∧
      (t.eng.status = 0x00000008 ↔ lengthCheckPasses m s.eng.len.toNat ∧ s.eng.allMembers s.rom ∧ ¬ paddedFor m s ∧
        2 ^ 64 ≤ s.eng.textValue s.rom) ∧
      (t.eng.status = 0x00000001 ↔ lengthCheckPasses m s.eng.len.toNat ∧ s.eng.allMembers s.rom ∧ ¬ paddedFor m s ∧
        s.eng.textValue s.rom < 2 ^ 64))

/-- R204, R11: a decoder that does not succeed leaves `STATUS.OK` 0, `STATUS.ERR` 1 to 4, `STATUS[31:4]` 0, and changes nothing else but `VAL` (some value)
and the model's counter of draws; one that succeeds changes `VAL` and `STATUS` only. -/
def Obligations.DecodersTouchOnlyValAndStatus : Prop :=
  ∀ (s : State) (m : Instr), m = .decf ∨ m = .decv →
    (∃ v, succeedsWith m s v) ∨
    ∃ w, endsWithError m s w ∧ w.extractLsb' 0 1 = 0 ∧ w.extractLsb' 4 28 = 0 ∧
      1 ≤ (w.extractLsb' 1 3).toNat ∧ (w.extractLsb' 1 3).toNat ≤ 4

/-! ## The codec as a whole -/

/-- The fixed codec is a bijection (42_fixed_codec.md R144, whose second half the spec marks derived): `DECF` succeeds with the value that `ENCF` encoded, from every
state that holds the `LEN` and the characters `ENCF` left, whatever its `VAL`, and leaves the string; and `ENCF` after a successful `DECF` writes the same 11
characters. -/
def Obligations.FixedCodecRoundTrip : Prop :=
  ∀ s : State, s.rom.wf →
    endsIn .encf s (fun t => ∀ u : State, holdsStringOf t u → succeedsWith .decf u s.eng.val) ∧
    ∀ v, succeedsWith .decf s v → ∀ t : State, t.rom = s.rom → t.eng.val = v →
      endsIn .encf t (fun u => ∀ i, i < 11 → u.eng.txtAt i = s.eng.txtAt i)

/-- R166: `DECV` succeeds with the value that `ENCV` encoded, for every value, 0 among them, from every state that holds the `LEN` and the characters `ENCV` left,
whatever its `VAL`. -/
def Obligations.VariableCodecRoundTrip : Prop :=
  ∀ s : State, s.rom.wf → endsIn .encv s (fun t => ∀ u : State, holdsStringOf t u → succeedsWith .decv u s.eng.val)

/-- One representation per value (43_variable_codec.md R164, which the spec marks derived): `ENCV` after a successful `DECV` writes the same `LEN` and the
same characters. -/
def Obligations.VariableCodecReencodes : Prop :=
  ∀ (s : State) (v : Value), s.rom.wf → succeedsWith .decv s v → ∀ t : State, t.rom = s.rom → t.eng.val = v →
    endsIn .encv t (fun u => u.eng.len = s.eng.len ∧ ∀ i, i < s.eng.len.toNat → u.eng.txtAt i = s.eng.txtAt i)

/-- Agreement of the two decoders on 11 characters (44_sequencer_and_laws.md R194, which the spec marks derived). -/
def Obligations.DecodersAgreeAtLengthEleven : Prop :=
  ∀ s : State, s.rom.wf → s.eng.len = 11 →
    (∀ v, succeedsWith .decv s v → succeedsWith .decf s v) ∧
    (∀ v, succeedsWith .decf s v → s.eng.txtAt 0 ≠ s.rom.zeroSymbol → succeedsWith .decv s v) ∧
    (∀ v, succeedsWith .decf s v → s.eng.txtAt 0 = s.rom.zeroSymbol → endsWithError .decv s 0x00000006) ∧
    (endsWithError .decf s 0x00000004 ↔ endsWithError .decv s 0x00000004) ∧
    (endsWithError .decf s 0x00000008 ↔ endsWithError .decv s 0x00000008)

/-- Cross round trips (44_sequencer_and_laws.md R195, which the spec marks derived): `DECF` on the string `ENCV` left, and `DECV` on the string `ENCF` left, succeed with
the value exactly for values from 2^60 on, and otherwise end with `InvalidLength` and `InvalidFormat`; the decoder runs from every state that holds the string,
whatever its `VAL`. -/
def Obligations.CrossRoundTrips : Prop :=
  ∀ s : State, s.rom.wf →
    endsIn .encv s (fun t => ∀ u : State, holdsStringOf t u →
      (2 ^ 60 ≤ s.eng.val.toNat → succeedsWith .decf u s.eng.val) ∧
      (s.eng.val.toNat < 2 ^ 60 → endsWithError .decf u 0x00000002)) ∧
    endsIn .encf s (fun t => ∀ u : State, holdsStringOf t u →
      (2 ^ 60 ≤ s.eng.val.toNat → succeedsWith .decv u s.eng.val) ∧
      (s.eng.val.toNat < 2 ^ 60 → endsWithError .decv u 0x00000006))

/-! ## The datapath -/

/-- R103 with R75 and R101: exactly 64 bytes have a digit and 192 have none; the terminator and every byte outside 0x21 to 0x7E have none. (That "printable" is that
range is the spec's own decision D12.) -/
def Obligations.MapperMembership : Prop :=
  ∀ r : Rom, r.wf →
    (Finset.univ.filter (fun c : Byte => r.digitOf c ≠ none)).card = 64 ∧
    (Finset.univ.filter (fun c : Byte => r.digitOf c = none)).card = 192 ∧
    r.digitOf r.terminator = none ∧ ∀ c : Byte, (c.toNat ≤ 0x20 ∨ 0x7F ≤ c.toNat) → r.digitOf c = none

/-- The lookups are inverse on their common domain (40_alphabet_mapper.md R104, which the spec marks derived), so `CharOf` is injective and two different
members have different digits. -/
def Obligations.MapperLookupsAreInverse : Prop :=
  ∀ r : Rom, r.wf →
    (∀ d : Digit, r.digitOf (r.charOf d) = some d) ∧
    (∀ (c : Byte) (d : Digit), r.digitOf c = some d → r.charOf d = c) ∧
    (∀ d e : Digit, r.charOf d = r.charOf e → d = e) ∧
    ∀ b c : Byte, r.digitOf b ≠ none → r.digitOf b = r.digitOf c → b = c

/-- The two forms of the overflow detector agree on every input (41_digit_arithmetic.md R125, which the spec marks derived): the same overflow bit, and the same
result when there is none. -/
def Obligations.OverflowDetectorFormsAgree : Prop :=
  ∀ (acc : Value) (d : Digit),
    (mulAdd64 acc d).1 = (mulAdd64Shifted acc d).1 ∧
    ((mulAdd64 acc d).1 = false → (mulAdd64 acc d).2 = (mulAdd64Shifted acc d).2)

/-- Where overflow can happen (41_digit_arithmetic.md R128, which the spec marks derived): never within 10 digits; with 11 exactly when the first is 16 or more. -/
def Obligations.OverflowOnlyAtEleventhDigit : Prop :=
  (∀ ds : List Digit, ds.length ≤ 10 → accumulate 0 ds ≠ none) ∧
  ∀ (d : Digit) (ds : List Digit), ds.length = 10 → (accumulate 0 (d :: ds) = none ↔ 16 ≤ d.toNat)

/-- R131: the length function by its table: 1 for values up to 63, and `n` for values from `64^(n-1)` to `64^n - 1`. -/
def Obligations.LengthFunctionTable : Prop :=
  ∀ v : Value,
    (varLen v = 1 ↔ v.toNat ≤ 63) ∧
    (∀ n, 2 ≤ n → n ≤ 10 → (varLen v = n ↔ (2 ^ (6 * (n - 1)) ≤ v.toNat ∧ v.toNat ≤ 2 ^ (6 * n) - 1))) ∧
    (varLen v = 11 ↔ 2 ^ 60 ≤ v.toNat) ∧ 1 ≤ varLen v ∧ varLen v ≤ 11

/-! ## The sequencers -/

/-- R180, R181, R133: the decoders' sequencer, from `Start` with any working state, is in a final phase after at most 26 steps, and that phase is the outcome of
the command; it stays there. The sequencer is a second definition of the commands, over the registers R32 names (log 9). -/
def Obligations.DecoderSequencerAnswersTheCommand : Prop :=
  ∀ (r : Rom) (e : Engine) (w : Working) (k : Nat), w.phase = .start → decoderBound ≤ k →
    ((decoderStep r false e)^[k] w).verdict = some (decodeFixed r e) ∧
    ((decoderStep r true e)^[k] w).verdict = some (decodeVariable r e)

/-- R184, R133: the encoders' sequencer, from `Start` with any working state, is done after at most 24 steps, and the registers of the instance are then those
the command leaves (log 9). -/
def Obligations.EncoderSequencerAnswersTheCommand : Prop :=
  ∀ (s : State) (w : Working) (k : Nat), w.phase = .start → encoderBound ≤ k →
    (((encoderStep s.rom false)^[k] (w, s.eng)).1.phase = .done ∧
      exec .encf s = .next (s.setEng ((encoderStep s.rom false)^[k] (w, s.eng)).2)) ∧
    (((encoderStep s.rom true)^[k] (w, s.eng)).1.phase = .done ∧
      exec .encv s = .next (s.setEng ((encoderStep s.rom true)^[k] (w, s.eng)).2))

/-- One-pass realisations (44_sequencer_and_laws.md R183, which the spec marks derived): the plain one-pass loop gives the outcome of `DECF` on every input; a
one-pass `DECV` that raises `InvalidFormat` at the leading zero-symbol gives `InvalidFormat` where the command gives `InvalidCharacter`, on every text of two
characters that begins with the zero-symbol and goes on with a non-member. -/
def Obligations.OnePassRealisations : Prop :=
  (∀ (r : Rom) (e : Engine), decodeFixedOnePass r e = decodeFixed r e) ∧
  ∀ (r : Rom) (e : Engine), r.wf → e.len = 2 → e.txtAt 0 = r.zeroSymbol → r.digitOf (e.txtAt 1) = none →
    decodeVariableEager r e = .error .invalidFormat ∧ decodeVariable r e = .error .invalidCharacter

/-! ## The machine -/

/-- R186, R233: every command completes from every state, so also right after reset and right after an error. -/
def Obligations.EveryCommandCompletes : Prop :=
  ∀ (m : Instr) (s : State), ∃ t, exec m s = .next t

/-- R28, R29: after any command, whatever `STATUS` held, it is one of the five words of a finished command: exactly one of `OK` = 1 and `ERR` ≠ 0 holds, `ERR` is
at most 4, bits 31:4 are 0; and the encoders leave 0x1. -/
def Obligations.StatusAfterCommand : Prop :=
  ∀ (m : Instr) (s : State), endsIn m s (fun t =>
    t.eng.status ∈ ([0x1, 0x2, 0x4, 0x6, 0x8] : List Word32) ∧
    (statusOk t.eng.status = 1 ↔ statusErr t.eng.status = 0) ∧ (statusErr t.eng.status).toNat ≤ 4 ∧
    t.eng.status.extractLsb' 4 28 = 0 ∧ ((m = .encf ∨ m = .encv) → t.eng.status = 0x1))

/-- R187, R26: the results are a function of the operands and the ROM: two machines that agree on the ROM and on a command's operands (`VAL` for an encoder; `LEN`
and `TXT[0..LEN-1]` for a decoder) agree on `STATUS`, on `LEN` and the written text for an encoder, and on `VAL` after a successful decode, whatever else differs. -/
def Obligations.ResultsDependOnOperandsOnly : Prop :=
  ∀ s u : State, s.rom = u.rom →
    (∀ m : Instr, m = .encf ∨ m = .encv → s.eng.val = u.eng.val → endsIn m s (fun t => endsIn m u (fun x =>
      t.eng.status = x.eng.status ∧ t.eng.len = x.eng.len ∧ ∀ i, i ≤ t.eng.len.toNat → t.eng.txtAt i = x.eng.txtAt i))) ∧
    ∀ m : Instr, m = .decf ∨ m = .decv → s.eng.len = u.eng.len →
      (∀ i, i < s.eng.len.toNat → s.eng.txtAt i = u.eng.txtAt i) → endsIn m s (fun t => endsIn m u (fun x =>
        t.eng.status = x.eng.status ∧ (t.eng.status = 0x1 → t.eng.val = x.eng.val)))

/-- What does not depend on the alphabet (40_alphabet_mapper.md R110, which the spec marks derived): over two ROMs that can be built, texts of the same digits, with
non-members at the same places, are decoded with the same `STATUS` and value; and a value is encoded to the same length and the same digits. -/
def Obligations.ResultsDoNotDependOnAlphabet : Prop :=
  ∀ s u : State, s.rom.wf → u.rom.wf →
    (∀ m : Instr, m = .encf ∨ m = .encv → s.eng.val = u.eng.val → endsIn m s (fun t => endsIn m u (fun x =>
      t.eng.len = x.eng.len ∧
      ∀ i, i < t.eng.len.toNat → s.rom.digitOf (t.eng.txtAt i) = u.rom.digitOf (x.eng.txtAt i)))) ∧
    ∀ m : Instr, m = .decf ∨ m = .decv → s.eng.len = u.eng.len →
      (∀ i, i < s.eng.len.toNat → s.rom.digitOf (s.eng.txtAt i) = u.rom.digitOf (u.eng.txtAt i)) →
      endsIn m s (fun t => endsIn m u (fun x =>
        t.eng.status = x.eng.status ∧ (t.eng.status = 0x1 → t.eng.val = x.eng.val)))

/-- R230 to R232: a reset of instance `k` clears its `STATUS` and leaves every other instance, the ROM, the rest of the script and the replies unchanged. What the data
registers hold then is not stated: they are free values (log 3). -/
def Obligations.ResetMoveClearsStatus : Prop :=
  ∀ (s : State) (k : Nat) (rest : List Move), s.script = .reset k :: rest → k < s.engines.length →
    ∃ t, step s = .next t ∧ t.inst = k ∧ t.eng.status = 0x00000000 ∧ t.rom = s.rom ∧ t.script = rest ∧ t.replies = s.replies ∧
      t.engines.length = s.engines.length ∧ ∀ j, j ≠ k → t.engines[j]? = s.engines[j]?

/-- R231: right after reset every instance's `STATUS` is 0. The rest of this statement is the model's choice: one instance (log 6), the ROM of `REF_ALPHABET` and the
terminator 0x00 (log 7, PRESUMED; the defaults of R7), an empty script (log 4) and no replies (log 5). The data registers' zeros are the model's choice too (log 1) and
no part of this statement. -/
def Obligations.ResetState : Prop :=
  (∀ e ∈ State.reset.engines, e.status = 0x00000000) ∧ State.reset.engines.length = 1 ∧
  State.reset.rom.encRom = Config.refAlphabet ∧ State.reset.rom.terminator = 0x00 ∧
  State.reset.script = [] ∧ State.reset.replies = []

/-- R60, R214: a step for one instance leaves every register of every other as it was. -/
def Obligations.InstancesDoNotInteract : Prop :=
  ∀ (s t : State) (m : Move) (rest : List Move), s.script = m :: rest → step s = .next t →
    ∀ j, j ≠ m.inst → t.engines[j]? = s.engines[j]?

/-- R60, R247: moves on different instances commute: in the other order they complete too and leave the same ROM and the same registers in every instance. The values
that failed decodes and resets draw are among those registers: that they agree in both orders is the model's choice and no rule of the spec, for it rests on each
instance's own counter of draws (log 2, log 3, DESIGN CHOICE). -/
def Obligations.MovesOnDifferentInstancesCommute : Prop :=
  ∀ (s a b : State) (m n : Move), m.inst ≠ n.inst → runMove s m = .next a → runMove a n = .next b →
    ∃ c d, runMove s n = .next c ∧ runMove c m = .next d ∧ d.engines = b.engines ∧ d.rom = b.rom

/-- R31, R61, R232, R7: no step changes the ROM, the terminator or the number of instances. -/
def Obligations.StepKeepsRomAndInstances : Prop :=
  ∀ s t : State, step s = .next t → t.rom = s.rom ∧ t.engines.length = s.engines.length

/-- R28, R100, R107: every step, from every state, keeps the invariant: the ROM is one that can be built, and `STATUS` of every instance holds one of its six
possible words. -/
def Obligations.StepKeepsInvariant : Prop :=
  ∀ s t : State, s.Inv → step s = .next t → t.Inv

/-- The invariant holds right after reset (R231; the ROM is built from the default alphabet, log 7). -/
def Obligations.ResetHasInvariant : Prop := State.reset.Inv

/-- R234, X7, with R102 and R103: construction succeeds exactly for 64 distinct printable bytes that leave the terminator out, and in what it builds `CharOf(d)` is the
alphabet's byte `d`, and `DigitOf(c)` is `d` exactly when the alphabet's byte `d` is `c`. -/
def Obligations.ConstructionChecksAlphabet : Prop :=
  ∀ (a : Vector Byte 64) (t : Byte),
    (constructRom a t ≠ none ↔
      ((∀ i j : Fin 64, a[i] = a[j] → i = j) ∧ (∀ i : Fin 64, 0x21 ≤ a[i].toNat ∧ a[i].toNat ≤ 0x7E) ∧ ∀ i : Fin 64, a[i] ≠ t)) ∧
    ∀ r, constructRom a t = some r → r.wf ∧ r.terminator = t ∧ (∀ d : Digit, r.charOf d = a[d.toFin]) ∧
      ∀ (c : Byte) (d : Digit), r.digitOf c = some d ↔ a[d.toFin] = c

/-! ## The properties of the source -/

/-- The rejection properties of the source, each under the restriction the order of the checks forces on it (44_sequencer_and_laws.md R188): where the restriction of a kind
is met, a decoder reports that kind exactly when the property's cause is there, and where the cause of a kind is there without the restriction, a decoder still does not
succeed. -/
def Obligations.RejectionPropertiesUnderRestrictions : Prop :=
  ∀ (s : State) (m : Instr) (k : ErrorKind), s.rom.wf → (m = .decf ∨ m = .decv) →
    endsIn m s (fun t =>
      (rejectionRestriction m s k → (t.eng.status = statusFailure k ↔ rejectionCause m s k)) ∧
      (rejectionCause m s k → statusOk t.eng.status = 0))

/-- The source's two scenarios (44_sequencer_and_laws.md R188, 95_test_vectors.md S1 and S2), the first for every value: `DECF` gives back what `ENCF` encoded; given another
length with the same characters it ends with `InvalidLength`; given the string with one character replaced by a non-member it ends with `InvalidCharacter`. `ENCV` of 0 leaves
the zero-symbol alone, and `DECV` of that single character gives 0. -/
def Obligations.ScenariosOfTheSource : Prop :=
  ∀ s : State, s.rom.wf →
    endsIn .encf s (fun t => ∀ u : State,
      (holdsStringOf t u → succeedsWith .decf u s.eng.val) ∧
      (u.rom = t.rom → (∀ i, i < 11 → u.eng.txtAt i = t.eng.txtAt i) → u.eng.len ≠ 11 → endsWithError .decf u 0x00000002) ∧
      ∀ j, j < 11 → u.rom = t.rom → u.eng.len = 11 → (∀ i, i < 11 → i ≠ j → u.eng.txtAt i = t.eng.txtAt i) →
        s.rom.digitOf (u.eng.txtAt j) = none → endsWithError .decf u 0x00000004) ∧
    (s.eng.val = 0 → endsIn .encv s (fun t =>
      t.eng.len = 1 ∧ t.eng.txtAt 0 = s.rom.zeroSymbol ∧ t.eng.txtAt 1 = s.rom.terminator ∧
      ∀ u : State, u.rom = s.rom → u.eng.len = 1 → u.eng.txtAt 0 = s.rom.zeroSymbol → succeedsWith .decv u 0))
end

