-- ==== Sys2Proof/Laws/Decode.lean ====
section
/-! SUPPORT. What the decoders answer, said once (30_encoding.md R71, R73; 20_memory.md R51, R54). -/

namespace Sys2Proof

/-- The opcode map is exact: a word decodes to a command when it is that command's word. -/
theorem decodeCommand_eq_ok_iff (w : Word32) (i : Instr) : decodeCommand w = .ok i ↔ w = encode i := by
  constructor
  · intro h
    have hm : w &&& (0xFFFFFFFF : Word32) = w := by
      have h1 : (0xFFFFFFFF : Word32) = BitVec.allOnes 32 := by decide
      rw [h1, BitVec.and_allOnes]
    unfold decodeCommand at h
    split at h
    · next row hr =>
      have hmem := List.mem_of_find?_eq_some hr
      have hp := List.find?_some hr
      simp only [opcodeMap, List.mem_cons, List.not_mem_nil, or_false] at hmem
      obtain rfl | rfl | rfl | rfl := hmem <;> cases h <;> exact hm.symm.trans ((eq_of_beq hp).trans (by decide))
    · cases h
  · rintro rfl
    cases i <;> decide

/-- Every word above 3 is rejected as reserved, and only those are. -/
theorem decodeCommand_reserved (w : Word32) (h : 3 < w.toNat) : decodeCommand w = .error (.reservedCommand w) := by
  unfold decodeCommand
  split
  · next row hr =>
    exfalso
    have hi : decodeCommand w = .ok row.instr := by simp [decodeCommand, hr]
    rw [decodeCommand_eq_ok_iff] at hi
    rw [hi] at h
    revert h
    cases row.instr <;> decide
  · rfl

/-- The words of the four commands, and no others, are at most 3. -/
theorem exists_encode_of_le (w : Word32) (h : w.toNat ≤ 3) : ∃ i, w = encode i := by
  have hw : w = BitVec.ofNat 32 w.toNat := by simp
  interval_cases hn : w.toNat
  · exact ⟨.encf, hw.trans (by decide)⟩
  · exact ⟨.decf, hw.trans (by decide)⟩
  · exact ⟨.encv, hw.trans (by decide)⟩
  · exact ⟨.decv, hw.trans (by decide)⟩

theorem encode_toNat_lt (i : Instr) : (encode i).toNat < 4 := by cases i <;> decide

theorem ofIndex_txt (i : Fin 12) : Reg.ofIndex (16 + i.val) = some (.txt i) := by
  have := i.isLt
  unfold Reg.ofIndex
  rw [if_neg (by omega), if_neg (by omega), if_neg (by omega), if_neg (by omega), dif_pos (by omega)]
  simp

/-- The index map and its inverse agree (R51). -/
theorem ofIndex_eq_some_iff (r : Nat) (g : Reg) : Reg.ofIndex r = some g ↔ r = g.index := by
  unfold Reg.ofIndex
  constructor
  · intro h
    split at h; · cases h; assumption
    split at h; · cases h; assumption
    split at h; · cases h; assumption
    split at h; · cases h; assumption
    split at h
    · next hr => cases h; simp only [Reg.index]; omega
    · cases h
  · rintro rfl
    cases g with
    | txt i => exact ofIndex_txt i
    | _ => rfl

/-- The reserved indices are 4 to 15 and those from 28 on (R54). -/
theorem ofIndex_eq_none_iff (r : Nat) : Reg.ofIndex r = none ↔ (4 ≤ r ∧ r ≤ 15) ∨ 28 ≤ r := by
  constructor
  · intro h
    by_contra hc
    have : r = 0 ∨ r = 1 ∨ r = 2 ∨ r = 3 ∨ (16 ≤ r ∧ r < 28) := by omega
    obtain rfl | rfl | rfl | rfl | hr := this
    · cases h
    · cases h
    · cases h
    · cases h
    · have := (ofIndex_eq_some_iff r (.txt ⟨r - 16, by omega⟩)).2 (by simp only [Reg.index]; omega)
      rw [h] at this; cases this
  · intro h
    unfold Reg.ofIndex
    rw [if_neg (by omega), if_neg (by omega), if_neg (by omega), if_neg (by omega), dif_neg (by omega)]

theorem indexOk_eq (r : Nat) : indexOk r = (Reg.ofIndex r).isSome := by
  by_cases h : (4 ≤ r ∧ r ≤ 15) ∨ 28 ≤ r
  · rw [(ofIndex_eq_none_iff r).2 h]
    simp [indexOk]; omega
  · have hn : Reg.ofIndex r ≠ none := fun hn => h ((ofIndex_eq_none_iff r).1 hn)
    rw [Option.isSome_iff_ne_none.2 hn]
    simp [indexOk]; omega

theorem indexWidth_eq (g : Reg) : indexWidth g.index = g.width := by
  cases g with
  | txt i =>
    have h : ∀ n, 16 ≤ n → n < 28 → indexWidth n = 8 := by
      intro n h1 h2
      unfold indexWidth
      rw [if_neg (by omega), if_neg (by omega), if_pos ⟨h1, h2⟩]
    exact h _ (Nat.le_add_right 16 i.val) (Nat.add_lt_add_left i.isLt 16)
  | _ => rfl

end Sys2Proof
end

