-- ==== Sys2Proof/Laws/Digits.lean ====
section
/-! SUPPORT. What the datapath of 41_digit_arithmetic.md computes, in exact arithmetic, one lemma per function. -/

namespace Sys2Proof.Machine

@[simp] theorem radix_eq : Config.radix = 64 := rfl

@[simp] theorem fixedWidth_eq : Config.fixedWidth = 11 := rfl

@[simp] theorem minLen_eq : Config.minLen = 1 := rfl

@[simp] theorem maxLen_eq : Config.maxLen = 11 := rfl

@[simp] theorem maxIter_eq : Config.maxIter = 11 := rfl

/-- `DivMod64` (R120) on numbers. -/
theorem divMod64_toNat (v : Value) :
    (divMod64 v).1.toNat = v.toNat / 64 ∧ (divMod64 v).2.toNat = v.toNat % 64 := by
  constructor
  · simp [divMod64]
  · simp [divMod64]

theorem divMod64_snd (v : Value) : (divMod64 v).2 = BitVec.ofNat 6 (v.toNat % 64) := by
  apply BitVec.eq_of_toNat_eq
  rw [(divMod64_toNat v).2]
  simp

theorem extractDigits_length (k : Nat) (v : Value) : (extractDigits k v).length = k := by
  induction k generalizing v with
  | zero => rfl
  | succ k ih => simp [extractDigits, ih]

/-- Digit `j` of the extraction is `(v div 64^j) mod 64` (R121). -/
theorem extractDigits_getElem? (k : Nat) (v : Value) (j : Nat) (hj : j < k) :
    (extractDigits k v)[j]? = some (BitVec.ofNat 6 (v.toNat / 64 ^ j % 64)) := by
  induction k generalizing v j with
  | zero => omega
  | succ k ih =>
    cases j with
    | zero => simp [extractDigits, divMod64_snd]
    | succ j =>
      simp only [extractDigits, List.getElem?_cons_succ]
      rw [ih _ _ (by omega), (divMod64_toNat v).1, Nat.div_div_eq_div_mul, Nat.pow_succ, Nat.mul_comm 64]

/-- The step of the accumulator (R124): the overflow bit says that the exact result needs more than 64 bits, and without
overflow the kept bits are the exact result. -/
theorem mulAdd64_spec (acc : Value) (d : Digit) :
    ((mulAdd64 acc d).1 = true ↔ 2 ^ 64 ≤ acc.toNat * 64 + d.toNat) ∧
      ((mulAdd64 acc d).1 = false → (mulAdd64 acc d).2.toNat = acc.toNat * 64 + d.toNat) := by
  have ha : acc.toNat < 2 ^ 64 := acc.isLt
  have hd : d.toNat < 2 ^ 6 := d.isLt
  have hw : (acc.setWidth 70 * 64 + d.setWidth 70 : BitVec 70).toNat = acc.toNat * 64 + d.toNat := by
    simp only [BitVec.toNat_add, BitVec.toNat_mul, BitVec.toNat_setWidth]
    have h64 : (64 : BitVec 70).toNat = 64 := by decide
    rw [h64]
    omega
  have hov : (mulAdd64 acc d).1 = true ↔ 2 ^ 64 ≤ acc.toNat * 64 + d.toNat := by
    simp only [mulAdd64, bne_iff_ne, ne_eq]
    rw [← BitVec.toNat_inj, BitVec.extractLsb'_toNat, hw, Nat.shiftRight_eq_div_pow]
    have h0 : (0 : BitVec 6).toNat = 0 := by decide
    rw [h0]
    omega
  refine ⟨hov, fun h => ?_⟩
  have hlt : acc.toNat * 64 + d.toNat < 2 ^ 64 := by
    by_contra hc
    rw [hov.2 (by omega)] at h
    cases h
  simp only [mulAdd64, BitVec.toNat_setWidth, hw]
  omega

/-- Accumulation (R127): it answers exactly when the exact value fits in 64 bits, and then with that value. -/
theorem accumulate_eq_some_iff (acc : Value) (ds : List Digit) (v : Value) :
    accumulate acc ds = some v ↔ v.toNat = acc.toNat * 64 ^ ds.length + digitsValue ds := by
  induction ds generalizing acc with
  | nil =>
    simp only [accumulate, digitsValue, List.length_nil, Nat.pow_zero, Nat.mul_one, Nat.add_zero, Option.some.injEq]
    exact ⟨fun h => h ▸ rfl, fun h => BitVec.eq_of_toNat_eq h.symm⟩
  | cons d ds ih =>
    have hw : acc.toNat * 64 ^ (d :: ds).length + digitsValue (d :: ds) =
        (acc.toNat * 64 + d.toNat) * 64 ^ ds.length + digitsValue ds := by
      simp only [List.length_cons, digitsValue, weight, Config.radix, Nat.add_sub_cancel, Nat.sub_zero]
      ring
    rw [hw]
    simp only [accumulate]
    split
    · next hov =>
      have hge := (mulAdd64_spec acc d).1.1 hov
      have hv := v.isLt
      have : acc.toNat * 64 + d.toNat ≤ (acc.toNat * 64 + d.toNat) * 64 ^ ds.length :=
        Nat.le_mul_of_pos_right _ (by positivity)
      exact ⟨fun h => (by cases h), fun h => (by omega)⟩
    · next hov =>
      rw [ih, (mulAdd64_spec acc d).2 (by simpa using hov)]

theorem digitsValue_lt (ds : List Digit) : digitsValue ds < 64 ^ ds.length := by
  induction ds with
  | nil => decide
  | cons d ds ih =>
    have hd : d.toNat < 64 := d.isLt
    simp only [digitsValue, weight, Config.radix, List.length_cons, Nat.add_sub_cancel, Nat.sub_zero, Nat.pow_succ]
    have : d.toNat * 64 ^ ds.length ≤ 63 * 64 ^ ds.length := Nat.mul_le_mul_right _ (by omega)
    omega

theorem leastLength_spec (v : Value) (fuel n : Nat) (hmin : ∀ m, Config.minLen ≤ m → m < n → 64 ^ m ≤ v.toNat)
    (hn : Config.minLen ≤ n) (hmax : v.toNat < 64 ^ (n + fuel)) :
    Config.minLen ≤ leastLength v fuel n ∧ leastLength v fuel n ≤ n + fuel ∧
      v.toNat < 64 ^ leastLength v fuel n ∧ ∀ m, Config.minLen ≤ m → m < leastLength v fuel n → 64 ^ m ≤ v.toNat := by
  induction fuel generalizing n with
  | zero => exact ⟨hn, Nat.le_refl _, hmax, hmin⟩
  | succ fuel ih =>
    simp only [leastLength, Config.radix]
    split
    · next hlt => exact ⟨hn, by omega, hlt, hmin⟩
    · next hge =>
      have := ih (n + 1) (fun m h1 h2 => ?_) (by omega) (by rwa [Nat.add_right_comm n 1 fuel])
      · exact ⟨this.1, by omega, this.2.2⟩
      · by_cases hm : m < n
        · exact hmin m h1 hm
        · have : m = n := by omega
          subst this; omega

/-- `VarLen` (R131): between 1 and 11, enough digits for the value, and no fewer than needed. -/
theorem varLen_spec (v : Value) : 1 ≤ varLen v ∧ varLen v ≤ 11 ∧ v.toNat < 64 ^ varLen v ∧
    ∀ m, 1 ≤ m → m < varLen v → 64 ^ m ≤ v.toNat := by
  have hv : v.toNat < 2 ^ 64 := v.isLt
  exact leastLength_spec v 10 1 (fun m h1 h2 => by simp only [Config.minLen] at h1; omega) (Nat.le_refl 1)
    (Nat.lt_of_lt_of_le hv (by norm_num))

/-- The extraction that stops at 0 gives as many digits as the least number of digits that hold the value (R122). -/
theorem extractUntilZero_eq (fuel n : Nat) (v : Value) (h1 : 1 ≤ n) (hf : n ≤ fuel) (hlt : v.toNat < 64 ^ n)
    (hmin : ∀ m, 1 ≤ m → m < n → 64 ^ m ≤ v.toNat) : extractUntilZero fuel v = extractDigits n v := by
  induction fuel generalizing n v with
  | zero => omega
  | succ fuel ih =>
    obtain ⟨n, rfl⟩ : ∃ k, n = k + 1 := ⟨n - 1, by omega⟩
    have hq := (divMod64_toNat v).1
    simp only [extractUntilZero, extractDigits]
    congr 1
    by_cases hz : (divMod64 v).1 = 0
    · rw [if_pos hz]
      have hz' : v.toNat / 64 = 0 := by rw [← hq, hz]; rfl
      cases n with
      | zero => rfl
      | succ n =>
        have := hmin 1 (Nat.le_refl 1) (by omega)
        omega
    · rw [if_neg hz]
      have hz' : v.toNat / 64 ≠ 0 := fun h0 => hz (BitVec.eq_of_toNat_eq (by rw [hq, h0]; rfl))
      have hn : 1 ≤ n := by
        by_contra hc
        have : n = 0 := by omega
        subst this
        simp only [Nat.zero_add, Nat.pow_one] at hlt
        omega
      refine ih n _ hn (by omega) ?_ (fun m h2 h3 => ?_)
      · rw [hq, Nat.div_lt_iff_lt_mul (by decide)]
        rwa [Nat.pow_succ] at hlt
      · rw [hq, Nat.le_div_iff_mul_le (by decide), ← Nat.pow_succ]
        exact hmin (m + 1) (by omega) (by omega)

/-- The variable-width encoder's extraction makes `VarLen` steps (R122, R131). -/
theorem extractUntilZero_varLen (v : Value) : extractUntilZero Config.maxIter v = extractDigits (varLen v) v :=
  extractUntilZero_eq _ _ v (varLen_spec v).1 (varLen_spec v).2.1 (varLen_spec v).2.2.1 (varLen_spec v).2.2.2

end Sys2Proof.Machine
end

