-- ==== Sys2Proof/Laws/Mapper.lean ====
section
/-! SUPPORT. What the mapper's lookups answer over a ROM that can be built (40_alphabet_mapper.md R100 to R107). -/

namespace Sys2Proof.Machine

theorem symbolDigit_eq_some {c : Byte} {d : Digit} (l : List Byte) (k : Nat)
    (h : symbolDigit c k l = some d) : ∃ j, l[j]? = some c ∧ d = BitVec.ofNat 6 (k + j) := by
  induction l generalizing k with
  | nil => cases h
  | cons x xs ih =>
    simp only [symbolDigit] at h
    split at h
    · next hx => cases h; exact ⟨0, by simp [hx], rfl⟩
    · obtain ⟨j, hj, hd⟩ := ih (k + 1) h
      exact ⟨j + 1, by simpa using hj, by rw [hd, Nat.add_assoc, Nat.add_comm 1 j]⟩

theorem symbolDigit_of_nodup {l : List Byte} (hn : l.Nodup) (k j : Nat) {c : Byte} (hj : l[j]? = some c) :
    symbolDigit c k l = some (BitVec.ofNat 6 (k + j)) := by
  induction l generalizing k j with
  | nil => simp at hj
  | cons x xs ih =>
    rw [List.nodup_cons] at hn
    cases j with
    | zero =>
      have : x = c := by simpa using hj
      simp [symbolDigit, this]
    | succ j =>
      have hj' : xs[j]? = some c := by simpa using hj
      have hne : x ≠ c := fun he => hn.1 (he ▸ List.mem_of_getElem? hj')
      simp only [symbolDigit, if_neg hne]
      rw [ih hn.2 (k + 1) j hj', Nat.add_assoc, Nat.add_comm 1 j]

theorem decRomOf_getElem (a : Vector Byte 64) (c : Byte) :
    (decRomOf a)[c.toNat]'(c.isLt) = symbolDigit c 0 a.toList := by
  simp [decRomOf]

/-- The parts of the construction check (R7, R100, R101). -/
theorem alphabetOk_iff (a : Vector Byte 64) (t : Byte) :
    alphabetOk a t = true ↔ a.toList.Nodup ∧ (∀ c ∈ a.toList, printable c = true) ∧ t ∉ a.toList := by
  simp only [alphabetOk, Bool.and_eq_true, Bool.not_eq_true', List.all_eq_true, decide_eq_true_eq,
    Bool.eq_false_iff, ne_eq, List.contains_iff_mem, and_assoc]

/-- `DigitOf` is the reverse lookup of `CharOf` (R103): it answers `d` exactly for the byte `CharOf(d)`. -/
theorem digitOf_eq_some_iff {r : Rom} (h : r.wf) (c : Byte) (d : Digit) :
    r.digitOf c = some d ↔ r.charOf d = c := by
  have hn := ((alphabetOk_iff _ _).1 h.1).1
  have hd : r.digitOf c = symbolDigit c 0 r.encRom.toList := by
    unfold Rom.digitOf
    simp only [h.2]
    exact decRomOf_getElem r.encRom c
  have hc : ∀ d : Digit, r.encRom.toList[d.toNat]? = some (r.charOf d) := by
    intro d
    have : d.toNat < 64 := d.isLt
    simp [Rom.charOf, this]
  constructor
  · intro h1
    rw [hd] at h1
    obtain ⟨j, hj, rfl⟩ := symbolDigit_eq_some _ _ h1
    have hlt : j < 64 := by
      have := (List.getElem?_eq_some_iff.1 hj).1
      simpa using this
    have := hc (BitVec.ofNat 6 (0 + j))
    rw [Nat.zero_add, BitVec.toNat_ofNat, Nat.mod_eq_of_lt (by simpa using hlt), hj] at this
    simpa using this.symm
  · rintro rfl
    rw [hd, symbolDigit_of_nodup hn 0 d.toNat (hc d)]
    simp

/-- A byte is a member exactly when it is a symbol of the alphabet (R75). -/
theorem isMember_iff {r : Rom} (h : r.wf) (c : Byte) : r.isMember c = true ↔ ∃ d, r.charOf d = c := by
  simp [Rom.isMember, Option.isSome_iff_exists, digitOf_eq_some_iff h]

theorem wf_romOf (a : Vector Byte 64) (t : Byte) : (romOf a t).wf ↔ alphabetOk a t = true := by
  simp [Rom.wf, romOf]

/-- Construction gives a ROM exactly for a valid alphabet, and then a well-formed one (R234, X7). -/
theorem constructRom_eq_some_iff (a : Vector Byte 64) (t : Byte) (r : Rom) :
    constructRom a t = some r ↔ alphabetOk a t = true ∧ r = romOf a t := by
  unfold constructRom
  split
  · next h => simp [h, eq_comm]
  · next h => simp [h]

end Sys2Proof.Machine
end

