-- ==== Sys2Proof/Laws/State.lean ====
section
/-! SUPPORT. One lemma per field per update of the state, each true by rfl, so that no later proof unfolds a record update. -/

namespace Sys2Proof.Machine

section EngineFields

variable (e : Engine)

@[simp] theorem writeVal_val (v : Value) : (e.writeVal v).val = v := rfl
@[simp] theorem writeVal_len (v : Value) : (e.writeVal v).len = e.len := rfl
@[simp] theorem writeVal_txt (v : Value) : (e.writeVal v).txt = e.txt := rfl
@[simp] theorem writeVal_status (v : Value) : (e.writeVal v).status = e.status := rfl
@[simp] theorem writeVal_draws (v : Value) : (e.writeVal v).draws = e.draws := rfl

@[simp] theorem writeLen_val (n : Word32) : (e.writeLen n).val = e.val := rfl
@[simp] theorem writeLen_len (n : Word32) : (e.writeLen n).len = n := rfl
@[simp] theorem writeLen_txt (n : Word32) : (e.writeLen n).txt = e.txt := rfl
@[simp] theorem writeLen_status (n : Word32) : (e.writeLen n).status = e.status := rfl
@[simp] theorem writeLen_draws (n : Word32) : (e.writeLen n).draws = e.draws := rfl

@[simp] theorem writeStatus_eq (v : Word32) : e.writeStatus v = e := rfl

@[simp] theorem writeTxt_val (i : Fin 12) (b : Byte) : (e.writeTxt i b).val = e.val := rfl
@[simp] theorem writeTxt_len (i : Fin 12) (b : Byte) : (e.writeTxt i b).len = e.len := rfl
@[simp] theorem writeTxt_txt (i : Fin 12) (b : Byte) : (e.writeTxt i b).txt = e.txt.set i b := rfl
@[simp] theorem writeTxt_status (i : Fin 12) (b : Byte) : (e.writeTxt i b).status = e.status := rfl
@[simp] theorem writeTxt_draws (i : Fin 12) (b : Byte) : (e.writeTxt i b).draws = e.draws := rfl

@[simp] theorem succeed_val (v : Value) : (e.succeed v).val = v := rfl
@[simp] theorem succeed_len (v : Value) : (e.succeed v).len = e.len := rfl
@[simp] theorem succeed_txt (v : Value) : (e.succeed v).txt = e.txt := rfl
@[simp] theorem succeed_status (v : Value) : (e.succeed v).status = statusSuccess := rfl
@[simp] theorem succeed_draws (v : Value) : (e.succeed v).draws = e.draws := rfl

@[simp] theorem raise_val (n : Nat) (k : ErrorKind) : (e.raise n k).val = Config.unspec64 n e.draws := rfl
@[simp] theorem raise_len (n : Nat) (k : ErrorKind) : (e.raise n k).len = e.len := rfl
@[simp] theorem raise_txt (n : Nat) (k : ErrorKind) : (e.raise n k).txt = e.txt := rfl
@[simp] theorem raise_status (n : Nat) (k : ErrorKind) : (e.raise n k).status = statusFailure k := rfl
@[simp] theorem raise_draws (n : Nat) (k : ErrorKind) : (e.raise n k).draws = e.draws + 1 := rfl

@[simp] theorem finishEncode_val (t : Byte) (cs : List Byte) : (e.finishEncode t cs).val = e.val := rfl
@[simp] theorem finishEncode_len (t : Byte) (cs : List Byte) :
    (e.finishEncode t cs).len = BitVec.ofNat 32 cs.length := rfl
@[simp] theorem finishEncode_txt (t : Byte) (cs : List Byte) :
    (e.finishEncode t cs).txt = putBytes 0 (cs ++ [t]) e.txt := rfl
@[simp] theorem finishEncode_status (t : Byte) (cs : List Byte) : (e.finishEncode t cs).status = statusSuccess := rfl
@[simp] theorem finishEncode_draws (t : Byte) (cs : List Byte) : (e.finishEncode t cs).draws = e.draws := rfl

@[simp] theorem finishDecode_ok (n : Nat) (v : Value) : e.finishDecode n (.ok v) = e.succeed v := rfl
@[simp] theorem finishDecode_error (n : Nat) (k : ErrorKind) : e.finishDecode n (.error k) = e.raise n k := rfl

@[simp] theorem reset_status (n : Nat) : (e.reset n).status = 0 := rfl
@[simp] theorem reset_draws (n : Nat) : (e.reset n).draws = e.draws + 1 := rfl

end EngineFields

section StateFields

variable (s : State)

@[simp] theorem setEng_rom (e : Engine) : (s.setEng e).rom = s.rom := rfl
@[simp] theorem setEng_lower (e : Engine) : (s.setEng e).lower = s.lower := rfl
@[simp] theorem setEng_eng (e : Engine) : (s.setEng e).eng = e := rfl
@[simp] theorem setEng_upper (e : Engine) : (s.setEng e).upper = s.upper := rfl
@[simp] theorem setEng_script (e : Engine) : (s.setEng e).script = s.script := rfl
@[simp] theorem setEng_replies (e : Engine) : (s.setEng e).replies = s.replies := rfl
@[simp] theorem setEng_inst (e : Engine) : (s.setEng e).inst = s.inst := rfl
@[simp] theorem setEng_setEng (e f : Engine) : (s.setEng e).setEng f = s.setEng f := rfl
@[simp] theorem setEng_self : s.setEng s.eng = s := rfl

@[simp] theorem reply_rom (v : RegValue) : (s.reply v).rom = s.rom := rfl
@[simp] theorem reply_lower (v : RegValue) : (s.reply v).lower = s.lower := rfl
@[simp] theorem reply_eng (v : RegValue) : (s.reply v).eng = s.eng := rfl
@[simp] theorem reply_upper (v : RegValue) : (s.reply v).upper = s.upper := rfl
@[simp] theorem reply_script (v : RegValue) : (s.reply v).script = s.script := rfl
@[simp] theorem reply_replies (v : RegValue) : (s.reply v).replies = v :: s.replies := rfl
@[simp] theorem reply_engines (v : RegValue) : (s.reply v).engines = s.engines := rfl

@[simp] theorem withFetchWord_script (nbits w : Nat) :
    (s.withFetchWord nbits w).script = commandMove s.inst nbits w :: s.script := rfl
@[simp] theorem withFetchWord_eng (nbits w : Nat) : (s.withFetchWord nbits w).eng = s.eng := rfl
@[simp] theorem withFetchWord_rom (nbits w : Nat) : (s.withFetchWord nbits w).rom = s.rom := rfl

/-- The instances after an update of the one in focus: that one replaced, every other as it was. -/
theorem setEng_engines (e : Engine) : (s.setEng e).engines = s.engines.set s.inst e := by
  simp [State.engines, State.setEng, State.inst]

theorem engines_getElem_inst : s.engines[s.inst]? = some s.eng := by
  simp [State.engines, State.inst]

theorem engines_length : s.engines.length = s.lower.length + 1 + s.upper.length := by
  simp [State.engines]; omega

end StateFields

end Sys2Proof.Machine
end

