-- ==== Sys2Proof/Laws/Ops.lean ====
section
/-! SUPPORT. What each shared operation can do, said once: writing a string, looking up its digits, choosing an instance, and the
inversion of one move and one step. -/

namespace Sys2Proof.Machine

/-- Writing bytes from index `i` on: those registers hold them, every other is unchanged (R25, R55). -/
theorem putBytes_getElem (bs : List Byte) (i : Nat) (t : Vector Byte 12) (j : Nat) (hj : j < 12) :
    (putBytes i bs t)[j] = if i ≤ j then (bs[j - i]?).getD t[j] else t[j] := by
  induction bs generalizing i t with
  | nil => simp [putBytes]
  | cons b bs ih =>
    simp only [putBytes, ih]
    by_cases h1 : i ≤ j
    · by_cases h2 : i = j
      · subst h2
        simp
      · have h3 : i + 1 ≤ j := by omega
        have h4 : j - i = (j - (i + 1)) + 1 := by omega
        rw [if_pos h3, if_pos h1, h4, List.getElem?_cons_succ, Vector.getElem_setIfInBounds_ne hj (by omega)]
    · rw [if_neg (by omega), if_neg h1, Vector.getElem_setIfInBounds_ne hj (by omega)]

/-- The look-up of a string answers digits exactly when every byte has the digit at its place (R103, R141, R161). -/
theorem lookupAll_eq_some_iff (r : Rom) (cs : List Byte) (ds : List Digit) :
    r.lookupAll cs = some ds ↔ cs.map r.digitOf = ds.map some := by
  induction cs generalizing ds with
  | nil => cases ds <;> simp [Rom.lookupAll]
  | cons c cs ih =>
    simp only [Rom.lookupAll, List.map_cons]
    cases hc : r.digitOf c with
    | none => cases ds <;> simp
    | some d =>
      cases hcs : r.lookupAll cs with
      | none =>
        cases ds with
        | nil => simp
        | cons e es =>
          have := ih es
          rw [hcs] at this
          simp only [reduceCtorEq, false_iff] at this
          simp [this]
      | some es =>
        have := (ih es).1 hcs
        cases ds with
        | nil => simp
        | cons f fs =>
          rw [this]
          simp [List.map_inj_right]

/-- The look-up fails exactly when some byte is no member (R141, R161). -/
theorem lookupAll_eq_none_iff (r : Rom) (cs : List Byte) :
    r.lookupAll cs = none ↔ ∃ c ∈ cs, r.digitOf c = none := by
  induction cs with
  | nil => simp [Rom.lookupAll]
  | cons c cs ih =>
    simp only [Rom.lookupAll, List.mem_cons, exists_eq_or_imp]
    cases hc : r.digitOf c with
    | none => simp
    | some d =>
      cases hcs : r.lookupAll cs with
      | none => simpa using ih.1 hcs
      | some es =>
        rw [hcs] at ih
        simpa using ih

theorem lookupAll_length {r : Rom} {cs : List Byte} {ds : List Digit} (h : r.lookupAll cs = some ds) :
    ds.length = cs.length := by
  have := congrArg List.length ((lookupAll_eq_some_iff r cs ds).1 h)
  simpa using this.symm

/-- A register of the text operand (R26): its first `LEN` bytes are `TXT[0]` to `TXT[LEN-1]`. -/
theorem textOperand_getElem? (e : Engine) (i : Nat) (h : e.len.toNat ≤ 12) (hi : i < e.len.toNat) :
    e.textOperand[i]? = some (e.txtAt i) := by
  simp only [Engine.textOperand, Engine.lengthOperand, Engine.txtAt]
  rw [List.getElem?_take_of_lt hi]
  have : i < 12 := by omega
  simp [this]

theorem textOperand_length (e : Engine) (h : e.len.toNat ≤ 12) : e.textOperand.length = e.len.toNat := by
  simp [Engine.textOperand, Engine.lengthOperand]
  omega

/-- The text operand is fixed by `LEN` and `TXT[0..LEN-1]` (R26). -/
theorem textOperand_congr {e f : Engine} (hn : f.len = e.len) (ht : ∀ i, i < e.len.toNat → f.txtAt i = e.txtAt i)
    (hl : e.len.toNat ≤ 12) : f.textOperand = e.textOperand := by
  apply List.ext_getElem?
  intro i
  by_cases hi : i < e.len.toNat
  · rw [textOperand_getElem? f i (by rwa [hn]) (by rwa [hn]), textOperand_getElem? e i hl hi, ht i hi]
  · rw [List.getElem?_eq_none, List.getElem?_eq_none]
    · rw [textOperand_length e hl]; omega
    · rw [textOperand_length f (by rwa [hn]), hn]; omega

/-- The characters of an extraction (R123): place `i` of `n` holds the digit of weight `64^(n-1-i)`. -/
theorem spell_extractDigits_getElem? (r : Rom) (n : Nat) (v : Value) (i : Nat) (hi : i < n) :
    (r.spell (extractDigits n v))[i]? = some (r.charOf (BitVec.ofNat 6 (v.toNat / 64 ^ (n - 1 - i) % 64))) := by
  simp only [Rom.spell, List.getElem?_map]
  rw [List.getElem?_reverse (by rw [extractDigits_length]; exact hi), extractDigits_length,
    extractDigits_getElem? n v (n - 1 - i) (by omega)]
  rfl

theorem spell_length (r : Rom) (ds : List Digit) : (r.spell ds).length = ds.length := by simp [Rom.spell]

/-- Phase Accumulating (R180): success with the exact value when it fits in 64 bits, else `OutOfRange`. -/
theorem accumulateOutcome_eq (ds : List Digit) :
    accumulateOutcome ds =
      if digitsValue ds < 2 ^ 64 then .ok (BitVec.ofNat 64 (digitsValue ds)) else .error .outOfRange := by
  unfold accumulateOutcome
  split
  · next h =>
    rw [if_neg]
    intro hc
    have := (accumulate_eq_some_iff 0 ds (BitVec.ofNat 64 (digitsValue ds))).2 (by simp; omega)
    rw [h] at this
    cases this
  · next v h =>
    have hv := (accumulate_eq_some_iff 0 ds v).1 h
    have hz : (0 : Value).toNat = 0 := rfl
    rw [hz, Nat.zero_mul, Nat.zero_add] at hv
    rw [if_pos (by rw [← hv]; exact v.isLt), ← hv]
    simp

/-- The length check of `DECV` (R161). -/
theorem variableLengthOk_iff (n : Nat) : variableLengthOk n = true ↔ 1 ≤ n ∧ n ≤ 11 := by
  simp [variableLengthOk]

/-- The outcome of `DECF` reads nothing but the ROM, `LEN` and `TXT[0..LEN-1]` (R26, R141). -/
theorem decodeFixed_congr {e f : Engine} (r : Rom) (hn : f.len = e.len)
    (ht : ∀ i, i < e.len.toNat → f.txtAt i = e.txtAt i) : decodeFixed r f = decodeFixed r e := by
  unfold decodeFixed
  simp only [Engine.lengthOperand, hn]
  by_cases h : e.len.toNat = 11
  · simp [h, textOperand_congr hn ht (by omega)]
  · simp [h]

/-- The outcome of `DECV` reads nothing but the ROM, `LEN` and `TXT[0..LEN-1]` (R26, R161). -/
theorem decodeVariable_congr {e f : Engine} (r : Rom) (hn : f.len = e.len)
    (ht : ∀ i, i < e.len.toNat → f.txtAt i = e.txtAt i) : decodeVariable r f = decodeVariable r e := by
  unfold decodeVariable
  simp only [Engine.lengthOperand, hn]
  by_cases h : variableLengthOk e.len.toNat = true
  · simp [h, textOperand_congr hn ht (by have := (variableLengthOk_iff _).1 h; omega)]
  · simp [h]

/-- Focusing finds an instance exactly when its number exists, and moves the cut only (R214). -/
theorem focus_eq_some_iff (s t : State) (k : Nat) :
    s.focus k = some t ↔ k < s.engines.length ∧ t.engines = s.engines ∧ t.inst = k ∧
      t.rom = s.rom ∧ t.script = s.script ∧ t.replies = s.replies := by
  unfold State.focus
  constructor
  · intro h
    split at h
    · cases h
    · next e above hd =>
      cases h
      have hk : k < s.engines.length := by
        by_contra hc
        rw [List.drop_eq_nil_of_le (by omega)] at hd
        cases hd
      refine ⟨hk, ?_, ?_, rfl, rfl, rfl⟩
      · show s.engines.take k ++ e :: above = s.engines
        rw [← hd, List.take_append_drop]
      · show (s.engines.take k).length = k
        rw [List.length_take]; omega
  · rintro ⟨hk, he, hi, hr, hs, hp⟩
    have hd : s.engines.drop k = t.eng :: t.upper := by
      rw [← he, ← hi]; simp [State.engines, State.inst]
    have ht : s.engines.take k = t.lower := by
      rw [← he, ← hi]; simp [State.engines, State.inst]
    rw [hd, ht]
    cases t
    simp_all

theorem focus_eq_none_iff (s : State) (k : Nat) : s.focus k = none ↔ s.engines.length ≤ k := by
  unfold State.focus
  constructor
  · intro h
    split at h
    · next hd => simpa using hd
    · cases h
  · intro h
    rw [List.drop_eq_nil_of_le h]

theorem focus_inst (s : State) : s.focus s.inst = some s :=
  (focus_eq_some_iff s s s.inst).2 ⟨by rw [engines_length]; simp [State.inst]; omega, rfl, rfl, rfl, rfl, rfl⟩

/-- What one move can do when it has a next state: an access of a line, or a reset, on the instance it names. -/
theorem runMove_eq_next {s u : State} {m : Move} (h : runMove s m = .next u) :
    (∃ k a l t, m = .access k a ∧ s.focus k = some t ∧ decodeAccess a = .ok l ∧ runLine t l = .next u) ∨
      (∃ k t, m = .reset k ∧ s.focus k = some t ∧ u = t.setEng (t.eng.reset k)) := by
  cases m with
  | access k a =>
    refine .inl ?_
    simp only [runMove] at h
    split at h
    · cases h
    · next t ht =>
      simp only [runAccess] at h
      split at h
      · next l hl => exact ⟨k, a, l, t, rfl, ht, hl, h⟩
      · cases h
  | reset k =>
    refine .inr ?_
    simp only [runMove] at h
    split at h
    · cases h
    · next t ht =>
      have hi := ((focus_eq_some_iff s t k).1 ht).2.2.1
      cases h
      exact ⟨k, t, rfl, ht, by rw [hi]⟩

/-- What one access can do when it has a next state: a register of the instance in focus replaced, a command, or a reply. -/
theorem runLine_eq_next {t u : State} {l : Line} (h : runLine t l = .next u) :
    (∃ v, l = .wrVal v ∧ u = t.setEng (t.eng.writeVal v)) ∨
      (∃ n, l = .wrLen n ∧ u = t.setEng (t.eng.writeLen n)) ∨
      (∃ v, l = .wrStatus v ∧ u = t) ∨
      (∃ i b, l = .wrTxt i b ∧ u = t.setEng (t.eng.writeTxt i b)) ∨
      (∃ m, l = .cmd m ∧ exec m t = .next u) ∨
      (∃ r, l = .rd r ∧ u = t.reply (t.eng.hostRead r)) := by
  cases l with
  | wrVal v => cases h; exact .inl ⟨v, rfl, rfl⟩
  | wrLen n => cases h; exact .inr (.inl ⟨n, rfl, rfl⟩)
  | wrStatus v => cases h; exact .inr (.inr (.inl ⟨v, rfl, rfl⟩))
  | wrTxt i b => cases h; exact .inr (.inr (.inr (.inl ⟨i, b, rfl, rfl⟩)))
  | cmd m => exact .inr (.inr (.inr (.inr (.inl ⟨m, rfl, h⟩))))
  | rd r => cases h; exact .inr (.inr (.inr (.inr (.inr ⟨r, rfl, rfl⟩))))

/-- What one step can do when it has a next state: nothing, or the first move of the script. -/
theorem step_eq_next {s u : State} (h : step s = .next u) :
    (s.script = [] ∧ u = s) ∨
      (∃ m rest, s.script = m :: rest ∧ runMove { s with script := rest } m = .next u) := by
  unfold step at h
  split at h
  · next hs => cases h; exact .inl ⟨hs, rfl⟩
  · next m rest hs => exact .inr ⟨m, rest, hs, h⟩

end Sys2Proof.Machine
end

