-- ==== Sys2Proof/Laws/PerInstr.lean ====
section
/-! SUPPORT. Statements about each instruction as syntax, one lemma per constructor. -/

namespace Sys2Proof.Laws

/-- Each command's word is decoded to it, its field `ZERO` is zero, and its fields `VAR` and `DIR` are bits 1 and 0 (R70, R71). -/
def Encoding.Statement (i : Instr) : Prop :=
  decodeCommand (encode i) = .ok i ∧ commandWordOk (encode i) = true ∧
    (encode i).extractLsb' 1 1 = i.varWidth ∧ (encode i).extractLsb' 0 1 = i.dir

theorem Encoding.encf : Encoding.Statement .encf := by unfold Encoding.Statement; decide

theorem Encoding.decf : Encoding.Statement .decf := by unfold Encoding.Statement; decide

theorem Encoding.encv : Encoding.Statement .encv := by unfold Encoding.Statement; decide

theorem Encoding.decv : Encoding.Statement .decv := by unfold Encoding.Statement; decide

end Sys2Proof.Laws
end

