-- ==== Sys2Proof/Machine/Script.lean ====
section
/-! DEFINITION. The host's notation: script lines as moves (30_encoding.md R82) and the pseudo-instructions (R83), each the list of the lines it
expands to. -/

namespace Sys2Proof.Machine

/-- Script lines as moves of instance `k`, top to bottom (R82). -/
def movesOf (k : Nat) (ls : List Line) : List Move := ls.map (fun l => .access k (encodeLine l))

/-- `WR TXT[0], c0` and so on, for the first 12 bytes of a list. -/
def writeBytesLines (bs : List Byte) : List Line :=
  (List.finRange 12).filterMap (fun i => bs[i.val]?.map (fun b => .wrTxt i b))

/-- `RD TXT[0]` to `RD TXT[n-1]`. -/
def readTextLines (n : Nat) : List Line :=
  ((List.finRange 12).filter (fun i => i.val < n)).map (fun i => .rd (.txt i))

/-- `WRSTR "c0...c(n-1)"`, at most 11 bytes (R83). -/
def wrstr (bs : List Byte) : List Line := writeBytesLines bs ++ [.wrLen (BitVec.ofNat 32 bs.length)]

/-- `WRSTRN "c0...c(k-1)", n`, at most 12 bytes (R83). -/
def wrstrn (bs : List Byte) (n : Word32) : List Line := writeBytesLines bs ++ [.wrLen n]

/-- `ENCODE_FIXED v` (R83). -/
def encodeFixedLines (v : Value) : List Line := [.wrVal v, .cmd .encf, .rd .len] ++ readTextLines 11

/-- `ENCODE_VARIABLE v` up to `RD LEN => n` (R83). -/
def encodeVariableLines (v : Value) : List Line := [.wrVal v, .cmd .encv, .rd .len]

/-- The rest of `ENCODE_VARIABLE`, once `RD LEN` has returned `n` (R83). -/
def encodeVariableRest (n : Word32) : List Line := readTextLines n.toNat

/-- `DECODE_FIXED "s", n` up to `RD STATUS => t` (R83). -/
def decodeFixedLines (bs : List Byte) (n : Word32) : List Line := wrstrn bs n ++ [.cmd .decf, .rd .status]

/-- `DECODE_VARIABLE "s", n` up to `RD STATUS => t` (R83). -/
def decodeVariableLines (bs : List Byte) (n : Word32) : List Line := wrstrn bs n ++ [.cmd .decv, .rd .status]

/-- The rest of the two decode pseudo-instructions, once `RD STATUS` has returned `t`: `if t[0] = 1 then RD VAL` (R83). -/
def decodeRest (t : Word32) : List Line := if statusOk t = 1 then [.rd .val] else []

/-- `IS_VALID` (R83): the line, and the answer `t[0]` (R206). -/
def isValidLines : List Line := [.rd .status]

/-- The answer of `IS_VALID` for the word `t` read. -/
def isValid (t : Word32) : Bool := statusOk t == 1

end Sys2Proof.Machine
end

