-- ==== Sys2Proof/Tests/Slice0.lean ====
section
/-! SUPPORT. The model's own tests. Expected values are those of 95_test_vectors.md (named by their ids) or are worked by hand from a rule. The theorems
whose names begin test_witness_ show that the hypotheses of a statement can be met together, at boundary values. -/

namespace Sys2Proof.Tests

-- One theorem at a time: in parallel the evaluations of this file start a thread each, and their stacks exceed the check's memory limit.
set_option Elab.async false

open Sys2Proof.Machine

/-! ## Helpers -/

/-- The reset machine with these operands. -/
def machine (val : Value) (len : Word32) (text : List Byte) : State :=
  State.reset.setEng { Engine.atReset with val := val, len := len, txt := putBytes 0 text Engine.atReset.txt }

/-- The same machine with a second instance just out of reset, number 1. -/
def twoMachines (val : Value) (len : Word32) (text : List Byte) : State :=
  { machine val len text with upper := [Engine.atReset] }

/-- The command has a next state, and it passes `p`. -/
def leads (i : Instr) (s : State) (p : State → Bool) : Bool :=
  match exec i s with
  | .next t => p t
  | _ => false

/-- The step has a next state, and it passes `p`. -/
def stepLeads (s : State) (p : State → Bool) : Bool :=
  match step s with
  | .next t => p t
  | _ => false

/-- The step is refused for this reason. -/
def stepRefuses (s : State) (r : Refusal) : Bool :=
  match step s with
  | .refused q => q == r
  | _ => false

/-- The machine whose next move is an access of instance 0. -/
def about (a : RawAccess) : State := { State.reset with script := [.access 0 a] }

/-- "P4hs6TZyOcS", the text of S1. -/
def textS1 : List Byte := [0x50, 0x34, 0x68, 0x73, 0x36, 0x54, 0x5A, 0x79, 0x4F, 0x63, 0x53]

/-- "Derb7v", the text of V12. -/
def textV12 : List Byte := [0x44, 0x65, 0x72, 0x62, 0x37, 0x76]

/-- "QAAAAAAAAAA", the text of F11 and V22: the number 2^64. -/
def textF11 : List Byte := 0x51 :: List.replicate 10 0x41

/-- "P__________", the text of F8d and V16: the number 2^64 - 1. -/
def textF8d : List Byte := 0x50 :: List.replicate 10 0x5F

/-- "AAAAAAAAAAA", the text of F1 and F23. -/
def textF1 : List Byte := List.replicate 11 0x41

/-! ## Well-formedness: an ill-formed term for each check -/

theorem test_wf_every_command : [Instr.encf, .decf, .encv, .decv].all Instr.wf = true := by decide

theorem test_wf_reserved_word : commandWordOk 0x00000004 = false := by decide

theorem test_wf_reserved_word_high_bit : commandWordOk 0x80000003 = false := by decide

theorem test_wf_reserved_index : indexOk 15 = false ∧ indexOk 28 = false ∧ indexOk 27 = true := by decide

theorem test_wf_read_reserved : (RawAccess.read 4).wf = false := by decide

theorem test_wf_write_too_wide : (RawAccess.write 16 256).wf = false := by decide

theorem test_wf_write_reserved_command : (RawAccess.write 2 4).wf = false := by decide

theorem test_wf_no_such_instance : (Move.reset 1).wf 1 = false ∧ (Move.access 1 (.read 0)).wf 1 = false := by decide

theorem test_wf_space_not_printable : printable 0x20 = false ∧ printable 0x7F = false := by decide

theorem test_wf_repeated_symbol : alphabetOk (Config.refAlphabet.set 63 0x41) 0 = false := by decide +kernel

theorem test_wf_symbol_not_printable : alphabetOk (Config.refAlphabet.set 63 0x80) 0 = false := by decide +kernel

theorem test_wf_terminator_in_alphabet : alphabetOk Config.refAlphabet 0x41 = false := by decide +kernel

theorem test_wf_invalid_alphabet_not_built : constructRom (Config.refAlphabet.set 63 0x41) 0 = none := by decide +kernel

/-! ## Decoding (R71, R51, R82) -/

theorem test_decode_words :
    decodeTableWord 32 0 = some .encf ∧ decodeTableWord 32 1 = some .decf ∧
      decodeTableWord 32 2 = some .encv ∧ decodeTableWord 32 3 = some .decv := by decide

theorem test_decode_reserved : decodeTableWord 32 4 = none ∧ decodeTableWord 32 0x80000000 = none := by decide

theorem test_decode_script_lines :
    decodeAccess (.write 20 0x21) = .ok (.wrTxt 4 0x21) ∧ decodeAccess (.write 0 0x1000) = .ok (.wrVal 4096) ∧
      decodeAccess (.write 1 10) = .ok (.wrLen 10) ∧ decodeAccess (.read 3) = .ok (.rd .status) := by decide

theorem test_script_wrstr :
    (wrstr [0x41, 0x42]).map encodeLine = [.write 16 0x41, .write 17 0x42, .write 1 2] := by decide

theorem test_script_decode_rest : decodeRest 0x1 = [.rd .val] ∧ decodeRest 0x6 = [] := by decide

/-! ## The mapper and the datapath -/

theorem test_charOf : (State.reset.rom.charOf 0, State.reset.rom.charOf 26, State.reset.rom.charOf 52,
    State.reset.rom.charOf 62, State.reset.rom.charOf 63) = (0x41, 0x61, 0x30, 0x2D, 0x5F) := by decide +kernel

theorem test_digitOf : State.reset.rom.digitOf 0x50 = some 15 ∧ State.reset.rom.digitOf 0x30 = some 52 ∧
    State.reset.rom.digitOf 0x2B = none ∧ State.reset.rom.digitOf 0xFF = none := by decide +kernel

theorem test_decRom_bits : decRomBits none = 0x40 ∧ decRomBits (some 63) = 0x3F := by decide

theorem test_divMod64 : divMod64 0xFE21B3A4D9C8E712 = (0x03F886CE9367239C, 18) := by decide

theorem test_mulAdd64_largest : mulAdd64 0x3FFFFFFFFFFFFFF 63 = (false, 0xFFFFFFFFFFFFFFFF) := by decide

theorem test_mulAdd64_overflow : (mulAdd64 0x400000000000000 0).1 = true ∧ (mulAdd64 0x600000000000000 0).1 = true := by decide

theorem test_varLen : [(0 : Value), 63, 64, 4095, 4096, 0x3FFFFFFFFFFFFF, 0x40000000000000, 0xFFFFFFFFFFFFFFF, 0x1000000000000000,
      0xFFFFFFFFFFFFFFFF].map varLen =
    [1, 1, 2, 2, 3, 9, 10, 10, 11, 11] := by decide

/-! ## The commands -/

/-- F8b (S1): text, terminator, `LEN`, `STATUS`, and `VAL` kept. -/
theorem test_encf_F8b : leads .encf (machine 0xFE21B3A4D9C8E712 5 []) (fun t =>
    t.eng == { val := 0xFE21B3A4D9C8E712, len := 11, txt := putBytes 0 (textS1 ++ [0]) Engine.atReset.txt,
               status := 1, draws := 0 }) = true := by decide +kernel

/-- F8d: the largest value. -/
theorem test_encf_F8d : leads .encf (machine 0xFFFFFFFFFFFFFFFF 0 []) (fun t => t.eng.textOperand == textF8d) = true := by
  decide +kernel

/-- V12: the tail after the terminator keeps its bytes. -/
theorem test_encv_V12 : leads .encv (machine 0xDEADBEEF 11 (List.replicate 12 0x7E)) (fun t =>
    t.eng.txt.toList == textV12 ++ [0, 0x7E, 0x7E, 0x7E, 0x7E, 0x7E] && t.eng.len == 6) = true := by decide +kernel

/-- V1 (S2): zero is one zero-symbol. -/
theorem test_encv_V1 : leads .encv (machine 0 9 []) (fun t => t.eng.len == 1 && t.eng.textOperand == [0x41]) = true := by
  decide +kernel

/-- S1: the fixed text decodes; the free value is not drawn. -/
theorem test_decf_S1 : leads .decf (machine 7 11 textS1) (fun t =>
    t.eng.val == 0xFE21B3A4D9C8E712 && t.eng.status == 1 && t.eng.draws == 0) = true := by decide +kernel

/-- F11, F14, F21 and F23: overflow, length, character before overflow, padding accepted. -/
theorem test_decf_errors :
    leads .decf (machine 7 11 textF11) (fun t => t.eng.status == 8) = true ∧
    leads .decf (machine 7 12 textS1) (fun t => t.eng.status == 2) = true ∧
    leads .decf (machine 7 11 (0x5F :: textS1.tail.take 9 ++ [0x21])) (fun t => t.eng.status == 4) = true ∧
    leads .decf (machine 7 11 textF1) (fun t => t.eng.status == 1 && t.eng.val == 0) = true := by decide +kernel

/-- S1 (R188): the text with `LEN` 10, and with `TXT[4]` replaced by `!`. -/
theorem test_decf_S1_rejects :
    leads .decf (machine 7 10 textS1) (fun t => t.eng.status == 2) = true ∧
    leads .decf (machine 7 11 (textS1.set 4 0x21)) (fun t => t.eng.status == 4) = true := by decide +kernel

/-- V12: the variable text decodes, `LEN` and the text are kept. -/
theorem test_decv_V12 : leads .decv (machine 7 6 textV12) (fun t =>
    t.eng.val == 0xDEADBEEF && t.eng.status == 1 && t.eng.len == 6 && t.eng.textOperand == textV12) = true := by decide +kernel

/-- V18, V27, V24, V22 and V20: format, character before format, length, overflow, a single zero-symbol. -/
theorem test_decv_errors :
    leads .decv (machine 7 2 [0x41, 0x41]) (fun t => t.eng.status == 6) = true ∧
    leads .decv (machine 7 2 [0x41, 0x21]) (fun t => t.eng.status == 4) = true ∧
    leads .decv (machine 7 0 [0x42]) (fun t => t.eng.status == 2) = true ∧
    leads .decv (machine 7 11 textF11) (fun t => t.eng.status == 8) = true ∧
    leads .decv (machine 7 1 [0x41]) (fun t => t.eng.status == 1 && t.eng.val == 0) = true := by decide +kernel

/-! ## Host accesses -/

theorem test_step_command : stepLeads (State.reset.withFetchWord 32 0) (fun t => t.eng.len == 11) = true := by decide +kernel

theorem test_step_read_status : stepLeads (about (.read 3)) (fun t => t.replies == [.w32 0]) = true := by decide +kernel

theorem test_step_write_status_ignored : stepLeads (about (.write 3 1)) (fun t => t.eng == Engine.atReset) = true := by
  decide +kernel

theorem test_step_too_wide : stepRefuses (about (.write 16 256)) (.valueTooWide 16 256) = true := by decide +kernel

theorem test_step_no_instance :
    stepRefuses { State.reset with script := [.reset 1] } (.noSuchInstance 1) = true := by decide +kernel

/-- An access to instance 1 leaves instance 0. -/
theorem test_step_second_instance :
    stepLeads { twoMachines 3 4 [] with script := [.access 1 (.write 0 9)] } (fun t =>
      t.engines == [(machine 3 4 []).eng, { Engine.atReset with val := 9 }]) = true := by decide +kernel

theorem test_step_reset : stepLeads { machine 3 4 [] with script := [.reset 0] } (fun t =>
    t.eng.status == 0 && t.eng.draws == 1) = true := by decide +kernel

/-! ## The sequencers -/

/-- A working state left over from anything (R32 "don't-care"), at `Start`. -/
def leftOver : Working := { phase := .start, acc := 77, rem := 5, dig := Vector.replicate 11 9, cnt := 13, i := 7 }

theorem test_sequencer_decodes :
    (let w := (decoderStep State.reset.rom true (machine 7 6 textV12).eng)^[decoderBound] leftOver
     w.phase == .success && w.acc == 0xDEADBEEF) = true := by decide +kernel

/-! ## Witnesses: the hypotheses of each statement can be met -/

theorem test_witness_alphabet_ok : alphabetOk Config.refAlphabet 0x00 = true := by decide +kernel

theorem test_witness_rom_wf : State.reset.rom.wf := (wf_romOf _ _).2 test_witness_alphabet_ok

theorem test_witness_words_reserved : 3 < (4 : Word32).toNat ∧ 3 < (0xFFFFFFFF : Word32).toNat := by decide

theorem test_witness_triple_decodes : decodeAccess (.write 27 255) = .ok (.wrTxt 11 0xFF) ∧
    decodeAccess (.write 2 3) = .ok (.cmd .decv) := by decide

/-- Two machines with one access to instance 1 next, and a reset after it. -/
def accessNext (a : RawAccess) : State := { twoMachines 3 4 [] with script := [.access 1 a, .reset 0] }

/-- The same machine with that access taken off the script and instance 1 in focus. -/
def accessFocus (a : RawAccess) : State :=
  { accessNext a with lower := [(accessNext a).eng], eng := Engine.atReset, upper := [], script := [.reset 0] }

/-- StepRunsDecodedAccess: a write of `LEN`, or of a command, for instance 1 of two; the state in focus differs in focus and script only. -/
theorem test_witness_step_runs :
    decodeAccess (.write 1 4294967295) = .ok (.wrLen 0xFFFFFFFF) ∧ decodeCommand (BitVec.ofNat 32 3) = .ok .decv ∧
      3 < 2 ^ 32 ∧ State.reset.script = [] := by decide +kernel

theorem test_witness_step_runs_focus (a : RawAccess) :
    (accessNext a).script = .access 1 a :: [.reset 0] ∧ (accessFocus a).engines = (accessNext a).engines ∧
      (accessFocus a).inst = 1 ∧ (accessFocus a).rom = (accessNext a).rom ∧ (accessFocus a).script = [.reset 0] ∧
      (accessFocus a).replies = (accessNext a).replies := ⟨rfl, rfl, rfl, rfl, rfl, rfl⟩

theorem test_witness_reserved_command :
    (about (.write 2 (4 : Word32).toNat)).script = .access 0 (.write 2 (4 : Word32).toNat) :: [] ∧
      0 < (about (.write 2 (4 : Word32).toNat)).engines.length ∧ (4 : Word32).extractLsb' 2 30 ≠ 0 ∧
      (0x80000000 : Word32).extractLsb' 2 30 ≠ 0 := by decide +kernel

theorem test_witness_reserved_index : 0 < (about (.read 4)).engines.length ∧
    stepRefuses (about (.read 4)) (.reservedIndex 4) = true ∧ stepRefuses (about (.write 15 0)) (.reservedIndex 15) = true ∧
    stepRefuses (about (.write 28 1)) (.reservedIndex 28) = true := by decide +kernel

/-- EncvResult at both ends of a length: 63 needs one digit, 64 two, the largest value eleven. -/
theorem test_witness_encv :
    (63 : Value).toNat < 64 ^ 1 ∧
    ((64 : Value).toNat < 64 ^ 2 ∧ ∀ m, m < 2 → 1 ≤ m → 64 ^ m ≤ (64 : Value).toNat) ∧
    ((0xFFFFFFFFFFFFFFFF : Value).toNat < 64 ^ 11 ∧
      ∀ m, m < 11 → 1 ≤ m → 64 ^ m ≤ (0xFFFFFFFFFFFFFFFF : Value).toNat) := by decide

/-- EncvIsMinimal: 0 and a positive value, and a state whose decoder succeeds with the value encoded. -/
theorem test_witness_minimal :
    leads .encv (machine 0xDEADBEEF 0 []) (fun t => t.eng.len == 6) = true ∧
    leads .decv (machine 7 6 textV12) (fun t =>
      t.eng == { (machine 7 6 textV12).eng with status := 1, val := 0xDEADBEEF }) = true := by decide +kernel

/-- DecfOutcome, one state for each clause: length 10 and 12, a non-member last, first digit 16, first digit 15. -/
theorem test_witness_decf :
    (machine 0 10 textS1).eng.len.toNat ≠ 11 ∧ (machine 0 12 textS1).eng.len.toNat ≠ 11 ∧
    ((machine 0 11 (textS1.take 10)).eng.len.toNat = 11 ∧
      ¬ (machine 0 11 (textS1.take 10)).eng.allMembers State.reset.rom) ∧
    ((machine 0 11 textF11).eng.len.toNat = 11 ∧ (machine 0 11 textF11).eng.allMembers State.reset.rom ∧
      (machine 0 11 textF11).eng.digitAt State.reset.rom 0 = 16) ∧
    (machine 0 11 textF8d).eng.len.toNat = 11 ∧ (machine 0 11 textF8d).eng.allMembers State.reset.rom ∧
      (machine 0 11 textF8d).eng.digitAt State.reset.rom 0 = 15 := by decide +kernel

/-- The lengths of the states below. -/
theorem test_witness_decv_lengths : [0, 1, 2, 11, 12].map (fun n => (machine 0 n []).eng.len.toNat) = [0, 1, 2, 11, 12] := by
  decide +kernel

/-- DecvOutcome, one state for each clause at its boundary. -/
theorem test_witness_decv :
    ((machine 0 0 []).eng.len.toNat = 0 ∧ 11 < (machine 0 12 []).eng.len.toNat) ∧
    ¬ (machine 0 1 [0x21]).eng.allMembers State.reset.rom ∧
    ((machine 0 2 [0x41, 0x41]).eng.allMembers State.reset.rom ∧
      (machine 0 2 [0x41, 0x41]).eng.digitAt State.reset.rom 0 = 0) ∧
    ((machine 0 11 textF11).eng.allMembers State.reset.rom ∧
      (machine 0 11 textF11).eng.digitAt State.reset.rom 0 = 16) ∧
    (machine 0 1 [0x41]).eng.allMembers State.reset.rom ∧
    ((machine 0 2 [0x42, 0x41]).eng.allMembers State.reset.rom ∧
      (machine 0 2 [0x42, 0x41]).eng.digitAt State.reset.rom 0 = 1) ∧
    ((machine 0 11 (0x42 :: textF1.tail)).eng.allMembers State.reset.rom ∧
      (machine 0 11 (0x42 :: textF1.tail)).eng.digitAt State.reset.rom 0 = 1) ∧
    (machine 0 11 textF8d).eng.allMembers State.reset.rom ∧
      (machine 0 11 textF8d).eng.digitAt State.reset.rom 0 = 15 := by decide +kernel

/-- OverflowRejection: eleven copies of the symbols of digits 63 and 62 (F9, F10, V22a). -/
theorem test_witness_overflow :
    (∀ i, i < 11 → (machine 0 11 (List.replicate 11 0x5F)).eng.txtAt i = State.reset.rom.charOf 63) ∧
    (∀ i, i < 11 → (machine 0 11 (List.replicate 11 0x2D)).eng.txtAt i = State.reset.rom.charOf 62) := by decide +kernel

/-- CharacterRejection: lengths 1 and 11 are admitted. -/
theorem test_witness_characters : (machine 0 1 []).eng.len.toNat = 1 ∧ (machine 0 11 []).eng.len.toNat = 11 := by
  decide +kernel

/-- FixedCodecRoundTrip, second half: a text `DECF` accepts, and a machine that holds its value. -/
theorem test_witness_fixed_reencode :
    leads .decf (machine 7 11 textS1) (fun t =>
      t.eng == { (machine 7 11 textS1).eng with status := 1, val := 0xFE21B3A4D9C8E712 }) = true ∧
    (machine 0xFE21B3A4D9C8E712 0 []).eng.val = 0xFE21B3A4D9C8E712 := by decide +kernel

/-- FixedCodecRoundTrip, CrossRoundTrips: a state that holds the string `ENCF` leaves, with other contents of `VAL`. -/
theorem test_witness_encf_string : endsIn .encf (machine 0xFE21B3A4D9C8E712 5 []) (fun t =>
    holdsStringOf t (machine 7 11 textS1) ∧ (machine 7 11 textS1).eng.val ≠ t.eng.val) :=
  ⟨_, rfl, ⟨rfl, by decide +kernel, by decide +kernel⟩, by decide +kernel⟩

/-- VariableCodecRoundTrip, CrossRoundTrips: the same for `ENCV`, with other bytes after the string. -/
theorem test_witness_encv_string : endsIn .encv (machine 0xDEADBEEF 0 []) (fun t =>
    holdsStringOf t (machine 7 6 (textV12 ++ [0x7E])) ∧ (machine 7 6 (textV12 ++ [0x7E])).eng.val ≠ t.eng.val) :=
  ⟨_, rfl, ⟨rfl, by decide +kernel, by decide +kernel⟩, by decide +kernel⟩

/-- DecodersAgreeAtLengthEleven: texts of 11 characters both decoders accept, and one only `DECF` accepts. -/
theorem test_witness_agree :
    leads .decv (machine 7 11 textF8d) (fun t => t.eng.status == 1) = true ∧
    (machine 7 11 textF8d).eng.txtAt 0 ≠ State.reset.rom.zeroSymbol ∧
    leads .decf (machine 7 11 textF1) (fun t => t.eng.status == 1) = true ∧
    (machine 7 11 textF1).eng.txtAt 0 = State.reset.rom.zeroSymbol := by decide +kernel

/-- CrossRoundTrips: values on both sides of the boundary. -/
theorem test_witness_cross : 2 ^ 60 ≤ (0x1000000000000000 : Value).toNat ∧ (0xFFFFFFFFFFFFFFF : Value).toNat < 2 ^ 60 := by decide

/-- RejectionPropertiesUnderRestrictions: each restriction with its cause, and the cause of another check without the restriction. -/
theorem test_witness_restrictions :
    rejectionCause .decf (machine 0 10 textS1) .invalidLength ∧
    (rejectionRestriction .decf (machine 0 11 (textS1.set 4 0x21)) .invalidCharacter ∧
      rejectionCause .decf (machine 0 11 (textS1.set 4 0x21)) .invalidCharacter) ∧
    (rejectionRestriction .decv (machine 0 2 [0x41, 0x41]) .invalidFormat ∧
      rejectionCause .decv (machine 0 2 [0x41, 0x41]) .invalidFormat) ∧
    (rejectionRestriction .decf (machine 0 11 textF11) .outOfRange ∧
      rejectionCause .decf (machine 0 11 textF11) .outOfRange) ∧
    rejectionCause .decv (machine 0 12 [0x41]) .invalidFormat := by
  unfold rejectionRestriction rejectionCause
  refine ⟨?_, ⟨?_, 4, ?_⟩, ?_, ?_, ?_⟩ <;> decide +kernel

/-- ScenariosOfTheSource: states that hold the text of S1 with `LEN` 10, and with one character replaced; and the single zero-symbol of S2. -/
theorem test_witness_scenarios :
    (∀ i, i < 11 → (machine 7 10 textS1).eng.txtAt i = (machine 7 11 textS1).eng.txtAt i) ∧ (machine 7 10 textS1).eng.len ≠ 11 ∧
    (∀ i, i < 11 → i ≠ 4 → (machine 7 11 (textS1.set 4 0x21)).eng.txtAt i = (machine 7 11 textS1).eng.txtAt i) ∧
    State.reset.rom.digitOf ((machine 7 11 (textS1.set 4 0x21)).eng.txtAt 4) = none ∧
    (machine 7 1 [0x41]).eng.txtAt 0 = State.reset.rom.zeroSymbol ∧ (machine 7 1 [0x41]).eng.len = 1 ∧
    (machine 0 9 []).eng.val = 0 := by decide +kernel

/-- MapperLookupsAreInverse, MapperMembership: a member, and bytes at the ends of the excluded ranges. -/
theorem test_witness_mapper : State.reset.rom.digitOf 0x5F = some 63 ∧ (0x20 : Byte).toNat ≤ 0x20 ∧ 0x7F ≤ (0x7F : Byte).toNat := by
  decide +kernel

/-- OverflowOnlyAtEleventhDigit and OverflowDetectorFormsAgree: ten digits, and a step without overflow. -/
theorem test_witness_digits : (List.replicate 10 (63 : Digit)).length = 10 ∧ (mulAdd64 0x3FFFFFFFFFFFFFF 63).1 = false := by decide

/-- The sequencers: a working state at `Start`, and the number of steps at the bound. -/
theorem test_witness_sequencers : leftOver.phase = .start ∧ decoderBound = 26 ∧ encoderBound = 24 := by decide

/-- OnePassRealisations: V27, the zero-symbol and then a non-member. -/
theorem test_witness_onePass :
    (machine 0 2 [0x41, 0x21]).eng.txtAt 0 = State.reset.rom.zeroSymbol ∧
    State.reset.rom.digitOf ((machine 0 2 [0x41, 0x21]).eng.txtAt 1) = none := by decide +kernel

/-- ResultsDependOnOperandsOnly: two machines that differ in all but a decoder's operands; two that differ in all but `VAL`. -/
theorem test_witness_operands :
    (∀ i, i < 2 → (machine 1 2 [0x42, 0x43]).eng.txtAt i = (machine 9 2 [0x42, 0x43, 0x21]).eng.txtAt i) ∧
    (machine 1 2 []).eng.val = (machine 1 9 [0x21]).eng.val := by decide +kernel

/-- Another alphabet: the default one in reverse order. -/
def reversedRom : Rom := romOf Config.refAlphabet.reverse 0x00

/-- ResultsDoNotDependOnAlphabet: two alphabets, and the text [1, 0] over each. -/
theorem test_witness_alphabets_wf : reversedRom.wf := (wf_romOf _ _).2 (by decide +kernel)

theorem test_witness_alphabets :
    (∀ i, i < 2 → State.reset.rom.digitOf ((machine 0 2 [0x42, 0x41]).eng.txtAt i) =
      reversedRom.digitOf ((machine 0 2 [0x2D, 0x5F]).eng.txtAt i)) := by decide +kernel

/-- ResetMoveClearsStatus, StepKeepsRomAndInstances, StepKeepsInvariant and InstancesDoNotInteract: a reset of instance 1 of two. -/
theorem test_witness_reset_move :
    1 < (twoMachines 3 4 []).engines.length ∧ (∀ e ∈ (twoMachines 3 4 []).engines, e.statusLegal) ∧
    stepLeads { twoMachines 3 4 [] with script := [.reset 1] } (fun t => t.inst == 1 && t.engines.length == 2) = true := by
  decide +kernel

/-- MovesOnDifferentInstancesCommute: a failing decode on instance 0, then a write to instance 1. -/
theorem test_witness_commute :
    (match runMove (twoMachines 3 4 []) (.access 0 (.write 2 1)) with
      | .next a =>
        (match runMove a (.access 1 (.write 0 9)) with
          | .next b => (b.engines.map (fun e => e.status)) == [0x2, 0x0]
          | _ => false)
      | _ => false) = true := by decide +kernel

/-- ConstructionChecksAlphabet: the default alphabet is built. -/
theorem test_witness_construct : constructRom Config.refAlphabet 0x00 = some State.reset.rom :=
  (constructRom_eq_some_iff _ _ _).2 ⟨test_witness_alphabet_ok, rfl⟩

end Sys2Proof.Tests
end

section
/-! PROOFS. The state (10_state.md): what a step keeps, the status a command leaves, and the access a step runs. -/

namespace Sys2Proof.Machine

/-! ## The ends of the commands -/

/-- The status word is one that a command ends with (R29): success, or the failure of one kind. -/
def Engine.statusFinal (e : Engine) : Prop := e.status = statusSuccess ∨ ∃ k, e.status = statusFailure k

theorem finishEncode_statusFinal (e : Engine) (t : Byte) (cs : List Byte) : (e.finishEncode t cs).statusFinal :=
  .inl (finishEncode_status e t cs)

theorem finishDecode_statusFinal (e : Engine) (n : Nat) (o : Except ErrorKind Value) : (e.finishDecode n o).statusFinal := by
  cases o with
  | ok v => exact .inl (succeed_status e v)
  | error k => exact .inr ⟨k, raise_status e n k⟩

/-- An encoder has one end, a success with the characters it produced (R140, R160). -/
theorem exec_encoder_eq (s : State) {m : Instr} (hm : m = .encf ∨ m = .encv) :
    ∃ cs, exec m s = .next (s.setEng (s.eng.finishEncode s.rom.terminator cs)) := by
  obtain rfl | rfl := hm
  · exact ⟨s.rom.spell (extractDigits Config.fixedWidth s.eng.valueOperand), rfl⟩
  · exact ⟨s.rom.spell (extractUntilZero Config.maxIter s.eng.valueOperand), rfl⟩

/-- A decoder ends with the outcome of its checks (R141, R161, R181). -/
theorem exec_decoder_eq (s : State) {m : Instr} (hm : m = .decf ∨ m = .decv) :
    ∃ o, exec m s = .next (s.setEng (s.eng.finishDecode s.inst o)) := by
  obtain rfl | rfl := hm
  · exact ⟨decodeFixed s.rom s.eng, rfl⟩
  · exact ⟨decodeVariable s.rom s.eng, rfl⟩

theorem encoder_or_decoder (m : Instr) : (m = .encf ∨ m = .encv) ∨ (m = .decf ∨ m = .decv) := by
  cases m <;> decide

/-- Every command completes, replaces the engine in focus only, and leaves a final status there; an encoder leaves success. -/
theorem exec_eq_next_setEng (m : Instr) (s : State) :
    ∃ e, exec m s = .next (s.setEng e) ∧ e.statusFinal ∧ ((m = .encf ∨ m = .encv) → e.status = statusSuccess) := by
  obtain hm | hm := encoder_or_decoder m
  · obtain ⟨cs, hcs⟩ := exec_encoder_eq s hm
    exact ⟨_, hcs, finishEncode_statusFinal _ _ _, fun _ => finishEncode_status _ _ _⟩
  · obtain ⟨o, ho⟩ := exec_decoder_eq s hm
    refine ⟨_, ho, finishDecode_statusFinal _ _ _, fun henc => ?_⟩
    obtain rfl | rfl := hm <;> simp at henc

/-! ## The words of a final status -/

/-- The fields of the five final words (R28, R29). -/
theorem statusFinal_fields {e : Engine} (h : e.statusFinal) :
    e.status ∈ ([0x1, 0x2, 0x4, 0x6, 0x8] : List Word32) ∧
    (statusOk e.status = 1 ↔ statusErr e.status = 0) ∧ (statusErr e.status).toNat ≤ 4 ∧
    e.status.extractLsb' 4 28 = 0 := by
  obtain h | ⟨k, h⟩ := h
  · rw [h]; decide
  · rw [h]; cases k <;> decide

/-- A final status is a possible one: the sixth possible word is the 0 of reset (R28). -/
theorem statusLegal_of_statusFinal {e : Engine} (h : e.statusFinal) : e.statusLegal :=
  List.mem_cons_of_mem 0x0 (statusFinal_fields h).1

/-- Settles O36: the end of a command determines its status word. -/
theorem statusAfterCommand : Obligations.StatusAfterCommand := by
  intro m s
  obtain ⟨e, hexec, hfinal, henc⟩ := exec_eq_next_setEng m s
  obtain ⟨hword, hone, hle, hhigh⟩ := statusFinal_fields hfinal
  exact ⟨s.setEng e, hexec, hword, hone, hle, hhigh, henc⟩

/-! ## What a step can change -/

/-- `u` has the ROM of `s` and its engines but for engine `k`, which exists and whose status stays a possible one. The script, the replies and the
focus are not constrained. -/
structure UpdatesAt (k : Nat) (s u : State) : Prop where
  rom_eq : u.rom = s.rom
  engines_eq : ∃ old new, s.engines[k]? = some old ∧ u.engines = s.engines.set k new ∧ (old.statusLegal → new.statusLegal)

/-- Replacing the engine in focus is an update there. -/
theorem updatesAt_setEng (s : State) {e : Engine} (h : s.eng.statusLegal → e.statusLegal) : UpdatesAt s.inst s (s.setEng e) :=
  ⟨rfl, s.eng, e, engines_getElem_inst s, setEng_engines s e, h⟩

/-- A reply to the host changes no engine. -/
theorem updatesAt_reply (s : State) (v : RegValue) : UpdatesAt s.inst s (s.reply v) := by
  obtain ⟨hrom, hengines⟩ := updatesAt_setEng s (e := s.eng) id
  exact ⟨hrom, hengines⟩

/-- An update at the focus, seen from the state before the focus was moved to engine `k`. -/
theorem UpdatesAt.of_focus {s t u : State} {k : Nat} (hf : s.focus k = some t) (h : UpdatesAt t.inst t u) : UpdatesAt k s u := by
  obtain ⟨-, hengines, hinst, hrom, -, -⟩ := (focus_eq_some_iff s t k).1 hf
  obtain ⟨hr, he⟩ := h
  rw [hrom] at hr
  rw [hengines, hinst] at he
  exact ⟨hr, he⟩

/-- A host access updates the engine in focus: `STATUS` is written by commands only (R29, R53). -/
theorem runLine_updatesAt {t u : State} {l : Line} (h : runLine t l = .next u) : UpdatesAt t.inst t u := by
  obtain ⟨v, rfl, rfl⟩ | ⟨n, rfl, rfl⟩ | ⟨v, rfl, rfl⟩ | ⟨i, b, rfl, rfl⟩ | ⟨m, rfl, hexec⟩ | ⟨r, rfl, rfl⟩ := runLine_eq_next h
  · exact updatesAt_setEng t id
  · exact updatesAt_setEng t id
  · exact updatesAt_setEng u id
  · exact updatesAt_setEng t id
  · obtain ⟨e, he, hfinal, -⟩ := exec_eq_next_setEng m t
    obtain rfl : t.setEng e = u := Host.Outcome.next.inj (he.symm.trans hexec)
    exact updatesAt_setEng t fun _ => statusLegal_of_statusFinal hfinal
  · exact updatesAt_reply t _

theorem reset_statusLegal (n : Nat) (e : Engine) : (e.reset n).statusLegal := by
  simp [Engine.statusLegal, legalStatusWords]

/-- A move updates the engine it names (R60, R247). -/
theorem runMove_updatesAt {s u : State} {m : Move} (h : runMove s m = .next u) : UpdatesAt m.inst s u := by
  obtain ⟨k, a, l, t, rfl, hf, -, hrun⟩ | ⟨k, t, rfl, hf, rfl⟩ := runMove_eq_next h
  · exact .of_focus hf (runLine_updatesAt hrun)
  · exact .of_focus hf (updatesAt_setEng t fun _ => reset_statusLegal k t.eng)

/-- A step with a next state stands still or updates the engine its move names. -/
theorem step_updatesAt {s u : State} (h : step s = .next u) :
    u = s ∨ ∃ m rest, s.script = m :: rest ∧ UpdatesAt m.inst s u := by
  obtain ⟨-, rfl⟩ | ⟨m, rest, hs, hrun⟩ := step_eq_next h
  · exact .inl rfl
  · obtain ⟨hrom, hengines⟩ := runMove_updatesAt hrun
    exact .inr ⟨m, rest, hs, hrom, hengines⟩

theorem UpdatesAt.engines_length {k : Nat} {s u : State} (h : UpdatesAt k s u) : u.engines.length = s.engines.length := by
  obtain ⟨-, old, new, -, hset, -⟩ := h
  rw [hset, List.length_set]

theorem UpdatesAt.inv {k : Nat} {s u : State} (h : UpdatesAt k s u) (hs : s.Inv) : u.Inv := by
  obtain ⟨hrom, old, new, hold, hset, hnew⟩ := h
  obtain ⟨hwf, hlegal⟩ := hs
  refine ⟨hrom ▸ hwf, fun e he => ?_⟩
  rw [hset] at he
  obtain hmem | rfl := List.mem_or_eq_of_mem_set he
  · exact hlegal e hmem
  · exact hnew (hlegal old (List.mem_of_getElem? hold))

/-- Settles O44: a step updates at most one engine and leaves a possible status there. -/
theorem stepKeepsInvariant : Obligations.StepKeepsInvariant := by
  intro s t hinv hstep
  obtain rfl | ⟨m, rest, -, hupd⟩ := step_updatesAt hstep
  · exact hinv
  · exact hupd.inv hinv

/-- Settles O43: an update of one engine keeps the ROM, the terminator in it, and the number of engines. -/
theorem stepKeepsRomAndInstances : Obligations.StepKeepsRomAndInstances := by
  intro s t hstep
  obtain rfl | ⟨m, rest, -, hupd⟩ := step_updatesAt hstep
  · exact ⟨rfl, rfl⟩
  · exact ⟨hupd.rom_eq, hupd.engines_length⟩

/-! ## The access a step runs -/

theorem step_of_script_nil {s : State} (h : s.script = []) : step s = .next s := by simp [step, h]

theorem step_of_script_cons {s : State} {m : Move} {rest : List Move} (h : s.script = m :: rest) :
    step s = runMove { s with script := rest } m := by simp [step, h]

theorem runMove_access_of_focus {s t : State} {k : Nat} (a : RawAccess) (h : s.focus k = some t) :
    runMove s (.access k a) = runAccess t a := by simp [runMove, h]

theorem runAccess_of_decode (s : State) {a : RawAccess} {l : Line} (h : decodeAccess a = .ok l) :
    runAccess s a = runLine s l := by simp [runAccess, h]

/-- A command's word written to `CMD` is the access that runs the command (R58, R71). -/
theorem decodeAccess_write_cmd {w : Nat} {m : Instr} (hw : w < 2 ^ 32) (hm : decodeCommand (BitVec.ofNat 32 w) = .ok m) :
    decodeAccess (.write 2 w) = .ok (.cmd m) := by
  have hidx : Reg.ofIndex 2 = some .cmd := (ofIndex_eq_some_iff 2 .cmd).2 rfl
  have hwidth : w < 2 ^ Reg.cmd.width := hw
  simp only [decodeAccess, hidx, if_pos hwidth, decodeWrite, hm]

theorem inst_lt_engines_length (s : State) : s.inst < s.engines.length :=
  (List.getElem?_eq_some_iff.1 (engines_getElem_inst s)).1

/-- The next move is an access: the step runs the decoded line on the state focused on the engine named (R52, R247). -/
theorem step_access_eq_runLine {s t : State} {k : Nat} {a : RawAccess} {l : Line} {rest : List Move}
    (hs : s.script = .access k a :: rest) (ha : decodeAccess a = .ok l) (hengines : t.engines = s.engines)
    (hinst : t.inst = k) (hrom : t.rom = s.rom) (hscript : t.script = rest) (hreplies : t.replies = s.replies) :
    step s = runLine t l := by
  have hlt : k < s.engines.length := by
    rw [← hinst, ← hengines]; exact inst_lt_engines_length t
  have hfocus : State.focus k { s with script := rest } = some t :=
    (focus_eq_some_iff _ t k).2 ⟨hlt, hengines, hinst, hrom, hscript, hreplies⟩
  rw [step_of_script_cons hs, runMove_access_of_focus a hfocus, runAccess_of_decode t ha]

/-- A step from the state `withFetchWord` makes runs the command whose word it placed. -/
theorem step_withFetchWord_encode (s : State) (m : Instr) : step (s.withFetchWord 32 (encode m).toNat) = exec m s := by
  have hmod : (encode m).toNat % 2 ^ 32 = (encode m).toNat := Nat.mod_eq_of_lt (encode m).isLt
  have hdecode : decodeAccess (.write 2 ((encode m).toNat % 2 ^ 32)) = .ok (.cmd m) := by
    rw [hmod]
    exact decodeAccess_write_cmd (encode m).isLt ((decodeCommand_eq_ok_iff _ m).2 (by simp))
  exact step_access_eq_runLine (t := s) (withFetchWord_script s 32 _) hdecode rfl rfl rfl rfl rfl

/-- Settles O3: the access decoded, the focus moved, and the line run there. -/
theorem stepRunsDecodedAccess : Obligations.StepRunsDecodedAccess := by
  refine ⟨?access, ?command, step_withFetchWord_encode, fun s => step_of_script_nil⟩
  case access =>
    intro s t k a l rest hs ha hengines hinst hrom hscript hreplies
    exact step_access_eq_runLine hs ha hengines hinst hrom hscript hreplies
  case command =>
    intro s t k w rest m hs hw hm hengines hinst hrom hscript hreplies
    exact step_access_eq_runLine hs (decodeAccess_write_cmd hw hm) hengines hinst hrom hscript hreplies

end Sys2Proof.Machine

end

section
/-! PROOFS. The registers of the engines (20_memory.md): reserved indices, what a host access reads and writes, and the independence of the engines. -/

namespace Sys2Proof.Machine

/-! ## Reserved indices -/

theorem decodeAccess_read_reserved {r : Nat} (h : Reg.ofIndex r = none) :
    decodeAccess (.read r) = .error (.reservedIndex r) := by simp [decodeAccess, h]

theorem decodeAccess_write_reserved {r : Nat} (v : Nat) (h : Reg.ofIndex r = none) :
    decodeAccess (.write r v) = .error (.reservedIndex r) := by simp [decodeAccess, h]

theorem runAccess_of_reject (s : State) {a : RawAccess} {r : Reject} (h : decodeAccess a = .error r) :
    runAccess s a = .refused (refusalOf r) := by simp [runAccess, h]

theorem exists_focus {s : State} {k : Nat} (h : k < s.engines.length) : ∃ t, s.focus k = some t :=
  Option.ne_none_iff_exists'.1 fun hnone => Nat.not_le_of_lt h ((focus_eq_none_iff s k).1 hnone)

/-- A rejected access to an engine that exists is refused by the name of what it breaks (R248). -/
theorem step_access_of_reject {s : State} {k : Nat} {a : RawAccess} {r : Reject} {rest : List Move}
    (hs : s.script = .access k a :: rest) (hk : k < s.engines.length) (ha : decodeAccess a = .error r) :
    step s = .refused (refusalOf r) := by
  obtain ⟨t, hfocus⟩ := exists_focus (s := { s with script := rest }) hk
  rw [step_of_script_cons hs, runMove_access_of_focus a hfocus, runAccess_of_reject t ha]

/-- Settles O5: no register stands at the index, so the decoder rejects the access, whatever the value. -/
theorem reservedIndexIsRefused : Obligations.ReservedIndexIsRefused := by
  intro s k r v rest hk hr
  have hnone : Reg.ofIndex r = none := (ofIndex_eq_none_iff r).2 hr
  exact ⟨fun hs => step_access_of_reject hs hk (decodeAccess_read_reserved hnone),
    fun hs => step_access_of_reject hs hk (decodeAccess_write_reserved v hnone)⟩

/-! ## One access to the engine in focus -/

section Lines

variable (s : State)

@[simp] theorem runLine_wrVal (v : Value) : runLine s (.wrVal v) = .next (s.setEng (s.eng.writeVal v)) := rfl
@[simp] theorem runLine_wrLen (n : Word32) : runLine s (.wrLen n) = .next (s.setEng (s.eng.writeLen n)) := rfl
@[simp] theorem runLine_wrStatus (v : Word32) : runLine s (.wrStatus v) = .next s := rfl
@[simp] theorem runLine_wrTxt (i : Fin 12) (b : Byte) :
    runLine s (.wrTxt i b) = .next (s.setEng (s.eng.writeTxt i b)) := rfl
@[simp] theorem runLine_cmd (m : Instr) : runLine s (.cmd m) = exec m s := rfl
@[simp] theorem runLine_rd (r : Reg) : runLine s (.rd r) = .next (s.reply (s.eng.hostRead r)) := rfl

end Lines

theorem writeTxt_getElem_self (e : Engine) (i : Fin 12) (b : Byte) : (e.writeTxt i b).txt[i] = b := by
  simp

theorem writeTxt_getElem_ne (e : Engine) {i j : Fin 12} (b : Byte) (h : j ≠ i) :
    (e.writeTxt i b).txt[j] = e.txt[j] := by
  have hne : i.val ≠ j.val := fun heq => h (Fin.ext heq.symm)
  simpa using Vector.getElem_set_ne i.isLt j.isLt hne

/-- Settles O7: a read replies with `hostRead` of the focus, which the reply leaves as it was. -/
theorem hostReadReturnsRegister : Obligations.HostReadReturnsRegister := by
  intro s r
  refine ⟨s.eng.hostRead r, runLine_rd s r, runLine_rd (s.reply _) r, ?val, ?len, ?cmd, ?status, ?txt⟩
  case txt => rintro i rfl; rfl
  all_goals rintro rfl; rfl

/-- Settles O8: each write is one update of the engine in focus; that of `TXT[i]` is read back register by register. -/
theorem hostWriteChangesOneRegister : Obligations.HostWriteChangesOneRegister := by
  intro s
  refine ⟨runLine_wrVal s, runLine_wrLen s, runLine_wrStatus s, fun i b => ?_⟩
  exact ⟨_, runLine_wrTxt s i b, rfl, writeTxt_getElem_self s.eng i b, fun j hj => writeTxt_getElem_ne s.eng b hj⟩

/-! ## The other engines -/

theorem UpdatesAt.getElem?_ne {k j : Nat} {s u : State} (h : UpdatesAt k s u) (hj : j ≠ k) :
    u.engines[j]? = s.engines[j]? := by
  obtain ⟨-, old, new, -, hset, -⟩ := h
  rw [hset, List.getElem?_set_ne hj.symm]

/-- Settles O41: a step updates no engine but the one its move names. -/
theorem instancesDoNotInteract : Obligations.InstancesDoNotInteract := by
  intro s t m rest hs hstep j hj
  rw [step_of_script_cons hs] at hstep
  exact (runMove_updatesAt hstep).getElem?_ne hj

/-! ## What a move depends on

A move reads the ROM, the engine it names and that engine's number, and nothing else of the state. -/

/-- The two states agree in what an access to the focus reads: the ROM, the engine in focus and its number. -/
structure SameFocus (s t : State) : Prop where
  rom_eq : t.rom = s.rom
  eng_eq : t.eng = s.eng
  inst_eq : t.inst = s.inst

theorem SameFocus.setEng {s t : State} (h : SameFocus s t) (e : Engine) : SameFocus (s.setEng e) (t.setEng e) :=
  ⟨h.rom_eq, rfl, h.inst_eq⟩

theorem SameFocus.reply {s t : State} (h : SameFocus s t) (v : RegValue) : SameFocus (s.reply v) (t.reply v) :=
  ⟨h.rom_eq, h.eng_eq, h.inst_eq⟩

theorem SameFocus.getElem?_inst {s t : State} (h : SameFocus s t) : t.engines[s.inst]? = s.engines[s.inst]? := by
  rw [engines_getElem_inst s, ← h.eng_eq, ← h.inst_eq, engines_getElem_inst t]

/-- States that agree in the ROM and in engine `k` agree in what is read once that engine is in focus. -/
theorem focus_sameFocus {s t s' : State} {k : Nat} (hf : s.focus k = some t) (hrom : s'.rom = s.rom)
    (heng : s'.engines[k]? = s.engines[k]?) : ∃ t', s'.focus k = some t' ∧ SameFocus t t' := by
  obtain ⟨hk, hengines, hinst, htrom, -, -⟩ := (focus_eq_some_iff s t k).1 hf
  have hk' : k < s'.engines.length := by
    rw [List.getElem?_eq_getElem hk] at heng
    exact (List.getElem?_eq_some_iff.1 heng).1
  obtain ⟨t', hf'⟩ := exists_focus hk'
  obtain ⟨-, hengines', hinst', htrom', -, -⟩ := (focus_eq_some_iff s' t' k).1 hf'
  have hsome : some t'.eng = some t.eng := by
    rw [← engines_getElem_inst t', ← engines_getElem_inst t, hengines', hengines, hinst', hinst, heng]
  exact ⟨t', hf', by rw [htrom', htrom, hrom], Option.some.inj hsome, hinst'.trans hinst.symm⟩

/-- A command leaves the same engine in states that agree in what it reads (R26, R187). -/
theorem exec_sameFocus {t t' : State} (h : SameFocus t t') (m : Instr) :
    ∃ e, exec m t = .next (t.setEng e) ∧ exec m t' = .next (t'.setEng e) := by
  obtain ⟨hrom, heng, hinst⟩ := h
  cases m with
  | encf => exact ⟨_, rfl, by simp only [exec, execEncf, hrom, heng]⟩
  | decf => exact ⟨_, rfl, by simp only [exec, execDecf, hrom, heng, hinst]⟩
  | encv => exact ⟨_, rfl, by simp only [exec, execEncv, hrom, heng]⟩
  | decv => exact ⟨_, rfl, by simp only [exec, execDecv, hrom, heng, hinst]⟩

/-- An access that completes does so, with the same effect on the focus, from every state that agrees in what it reads. -/
theorem runLine_sameFocus {t t' u : State} {l : Line} (h : SameFocus t t') (hrun : runLine t l = .next u) :
    ∃ u', runLine t' l = .next u' ∧ SameFocus u u' := by
  obtain ⟨v, rfl, rfl⟩ | ⟨n, rfl, rfl⟩ | ⟨v, rfl, rfl⟩ | ⟨i, b, rfl, rfl⟩ | ⟨m, rfl, hexec⟩ | ⟨r, rfl, rfl⟩ := runLine_eq_next hrun
  · exact ⟨_, runLine_wrVal t' v, h.eng_eq ▸ h.setEng _⟩
  · exact ⟨_, runLine_wrLen t' n, h.eng_eq ▸ h.setEng _⟩
  · exact ⟨_, runLine_wrStatus t' v, h⟩
  · exact ⟨_, runLine_wrTxt t' i b, h.eng_eq ▸ h.setEng _⟩
  · obtain ⟨e, he, he'⟩ := exec_sameFocus h m
    obtain rfl : t.setEng e = u := Host.Outcome.next.inj (he.symm.trans hexec)
    exact ⟨_, he', h.setEng e⟩
  · exact ⟨_, runLine_rd t' r, h.eng_eq ▸ h.reply _⟩

/-- A host access keeps the focus where it is. -/
theorem runLine_inst {t u : State} {l : Line} (hrun : runLine t l = .next u) : u.inst = t.inst := by
  obtain ⟨v, rfl, rfl⟩ | ⟨n, rfl, rfl⟩ | ⟨v, rfl, rfl⟩ | ⟨i, b, rfl, rfl⟩ | ⟨m, rfl, hexec⟩ | ⟨r, rfl, rfl⟩ := runLine_eq_next hrun
  case inr.inr.inr.inr.inl =>
    obtain ⟨e, he, -⟩ := exec_eq_next_setEng m t
    obtain rfl : t.setEng e = u := Host.Outcome.next.inj (he.symm.trans hexec)
    rfl
  all_goals rfl

/-- A move that completes does so from every state with the same ROM and the same engine where it acts, and leaves the same engine
there. -/
theorem runMove_congr {s u s' : State} {m : Move} (hrun : runMove s m = .next u) (hrom : s'.rom = s.rom)
    (heng : s'.engines[m.inst]? = s.engines[m.inst]?) :
    ∃ u', runMove s' m = .next u' ∧ u'.engines[m.inst]? = u.engines[m.inst]? := by
  obtain ⟨k, a, l, t, rfl, hf, hdecode, hline⟩ | ⟨k, t, rfl, hf, rfl⟩ := runMove_eq_next hrun
  all_goals
    obtain ⟨-, -, hinst, -, -, -⟩ := (focus_eq_some_iff s t k).1 hf
    obtain ⟨t', hf', hsame⟩ := focus_sameFocus hf hrom heng
  · obtain ⟨u', hline', hsame'⟩ := runLine_sameFocus hsame hline
    refine ⟨u', ?_, ?_⟩
    · rw [runMove_access_of_focus a hf', runAccess_of_decode t' hdecode, hline']
    · have hu : u.inst = k := (runLine_inst hline).trans hinst
      exact hu ▸ hsame'.getElem?_inst
  · refine ⟨t'.setEng (t'.eng.reset k), ?_, ?_⟩
    · simp only [runMove, hf', hsame.inst_eq, hinst]
    · rw [hsame.eng_eq]
      exact hinst ▸ (hsame.setEng _).getElem?_inst

/-- Settles O42: each move completes from the other starting state with the same engine, since the other move leaves what it reads alone. -/
theorem movesOnDifferentInstancesCommute : Obligations.MovesOnDifferentInstancesCommute := by
  intro s a b m n hne hsa hab
  have hupd_sa := runMove_updatesAt hsa
  have hupd_ab := runMove_updatesAt hab
  obtain ⟨c, hsc, hcn⟩ := runMove_congr (s' := s) hab hupd_sa.rom_eq.symm (hupd_sa.getElem?_ne hne.symm).symm
  have hupd_sc := runMove_updatesAt hsc
  obtain ⟨d, hcd, hdm⟩ := runMove_congr (s' := c) hsa hupd_sc.rom_eq (hupd_sc.getElem?_ne hne)
  have hupd_cd := runMove_updatesAt hcd
  refine ⟨c, d, hsc, hcd, List.ext_getElem? fun j => ?_, ?_⟩
  · by_cases hjm : j = m.inst
    · subst hjm
      rw [hdm, hupd_ab.getElem?_ne hne]
    · rw [hupd_cd.getElem?_ne hjm]
      by_cases hjn : j = n.inst
      · rw [hjn, hcn]
      · rw [hupd_sc.getElem?_ne hjn, hupd_ab.getElem?_ne hjn, hupd_sa.getElem?_ne hjm]
  · rw [hupd_cd.rom_eq, hupd_sc.rom_eq, hupd_ab.rom_eq, hupd_sa.rom_eq]

end Sys2Proof.Machine

end

section
/-! PROOFS. The encoding (30_encoding.md): command words, the triples of host accesses, and the strings of the two encoders. -/

namespace Sys2Proof.Machine

/-! ## Command words -/

/-- Settles O1: the opcode map is exact on its four words and rejects every word above 3. -/
theorem commandWordsDecode : Obligations.CommandWordsDecode :=
  ⟨decode_word_encf, decode_word_decf, decode_word_encv, decode_word_decv, decodeCommand_reserved⟩

theorem ofNat_encode_toNat (m : Instr) : BitVec.ofNat 32 (encode m).toNat = encode m := by simp

/-! ## The triples of host accesses -/

/-- A read decodes when its index is that of a register. -/
theorem decodeAccess_read_eq_ok_iff (r : Nat) (l : Line) :
    decodeAccess (.read r) = .ok l ↔ ∃ g : Reg, r = g.index ∧ l = .rd g := by
  simp only [decodeAccess, ← ofIndex_eq_some_iff]
  cases Reg.ofIndex r with
  | none => simp
  | some g => simp [eq_comm]

/-- A number of the register's width written at the register's index is the write of that register. -/
theorem decodeAccess_write_index {g : Reg} {v : Nat} (hv : v < 2 ^ g.width) :
    decodeAccess (.write g.index v) = decodeWrite v g := by
  simp only [decodeAccess, (ofIndex_eq_some_iff g.index g).2 rfl, if_pos hv]

/-- A write decodes when its index is that of a register, its number fits there, and the register takes it. -/
theorem decodeAccess_write_eq_ok_iff (r v : Nat) (l : Line) :
    decodeAccess (.write r v) = .ok l ↔ ∃ g : Reg, r = g.index ∧ v < 2 ^ g.width ∧ decodeWrite v g = .ok l := by
  constructor
  · intro h
    simp only [decodeAccess] at h
    split at h
    · next g hg =>
      split at h
      · next hv => exact ⟨g, (ofIndex_eq_some_iff r g).1 hg, hv, h⟩
      · cases h
    · cases h
  · rintro ⟨g, rfl, hv, h⟩
    rw [decodeAccess_write_index hv, h]

/-- `CMD` takes the four command words only (R71, R73). -/
theorem decodeWrite_cmd_eq_ok_iff (v : Nat) (l : Line) :
    decodeWrite v .cmd = .ok l ↔ ∃ m, BitVec.ofNat 32 v = encode m ∧ l = .cmd m := by
  simp only [decodeWrite, ← decodeCommand_eq_ok_iff]
  cases decodeCommand (BitVec.ofNat 32 v) with
  | error r => simp
  | ok m => simp [eq_comm]

/-- The triple of an accepted write has the register's index and the number written. -/
theorem encodeLine_of_decodeWrite {g : Reg} {v : Nat} {l : Line} (hv : v < 2 ^ g.width) (h : decodeWrite v g = .ok l) :
    encodeLine l = .write g.index v := by
  have htoNat : (BitVec.ofNat g.width v).toNat = v := (BitVec.toNat_ofNat v g.width).trans (Nat.mod_eq_of_lt hv)
  cases g with
  | cmd =>
    obtain ⟨m, hm, rfl⟩ := (decodeWrite_cmd_eq_ok_iff v l).1 h
    exact congrArg (RawAccess.write 2) ((congrArg BitVec.toNat hm.symm).trans htoNat)
  | val | len | status | txt _ => cases h; exact congrArg (RawAccess.write _) htoNat

/-- Every access is decoded from its triple, register by register (R82). -/
theorem decodeAccess_encodeLine (l : Line) : decodeAccess (encodeLine l) = .ok l := by
  cases l with
  | wrVal v => exact (decodeAccess_write_index (g := .val) v.isLt).trans (by simp [decodeWrite])
  | wrLen n => exact (decodeAccess_write_index (g := .len) n.isLt).trans (by simp [decodeWrite])
  | wrStatus v => exact (decodeAccess_write_index (g := .status) v.isLt).trans (by simp [decodeWrite])
  | wrTxt i b => exact (decodeAccess_write_index (g := .txt i) b.isLt).trans (by simp [decodeWrite])
  | cmd m =>
    exact decodeAccess_write_cmd (encode m).isLt ((decodeCommand_eq_ok_iff _ m).2 (ofNat_encode_toNat m))
  | rd r => exact (decodeAccess_read_eq_ok_iff r.index _).2 ⟨r, rfl, rfl⟩

/-- A triple that decodes is the triple of what it decodes to (R82). -/
theorem encodeLine_of_decodeAccess {a : RawAccess} {l : Line} (h : decodeAccess a = .ok l) : encodeLine l = a := by
  cases a with
  | read r =>
    obtain ⟨g, rfl, rfl⟩ := (decodeAccess_read_eq_ok_iff r l).1 h
    rfl
  | write r v =>
    obtain ⟨g, rfl, hv, hw⟩ := (decodeAccess_write_eq_ok_iff r v l).1 h
    exact encodeLine_of_decodeWrite hv hw

/-- Settles O2: `encodeLine` and `decodeAccess` are inverse to each other where the decoder accepts. -/
theorem accessTripleRoundTrip : Obligations.AccessTripleRoundTrip :=
  ⟨decodeAccess_encodeLine, fun _ _ => encodeLine_of_decodeAccess⟩

/-! ## Reserved command words -/

/-- A word whose field `ZERO` is not zero is above the four command words (R70, R73). -/
theorem three_lt_of_zero_field_ne {w : Word32} (h : w.extractLsb' 2 30 ≠ 0) : 3 < w.toNat := by
  by_contra hle
  refine h (BitVec.eq_of_toNat_eq ?_)
  have hdiv : w.toNat / 2 ^ 2 = 0 := Nat.div_eq_of_lt (by omega)
  rw [BitVec.extractLsb'_toNat, Nat.shiftRight_eq_div_pow, hdiv]
  rfl

theorem decodeAccess_write_reservedCommand {w : Word32} (h : 3 < w.toNat) :
    decodeAccess (.write 2 w.toNat) = .error (.reservedCommand w) := by
  refine (decodeAccess_write_index (g := .cmd) w.isLt).trans ?_
  simp [decodeWrite, decodeCommand_reserved w h]

/-- A run that starts with a refused step ends there with the same refusal, whatever its length (R249). -/
theorem run_of_step_refused {s : State} {r : Refusal} (h : step s = .refused r) (n : Nat) :
    Sys2Proof.core.run (n + 1) s = .refused r := by
  have hcore : Sys2Proof.core.step s = .refused r := h
  simp only [Host.Core.run, hcore]

/-- Settles O4: the decoder rejects the word, the step refuses the access, and the run stops at that step. -/
theorem reservedCommandIsRefused : Obligations.ReservedCommandIsRefused := by
  intro s k w rest n hs hk hw
  have hreject := decodeAccess_write_reservedCommand (three_lt_of_zero_field_ne hw)
  have hstep : step s = .refused (.reservedCommand w) := step_access_of_reject hs hk hreject
  exact ⟨hstep, run_of_step_refused hstep n⟩

/-! ## The string an encoder leaves -/

theorem finishEncode_len_toNat (e : Engine) (t : Byte) {cs : List Byte} (h : cs.length ≤ 12) :
    (e.finishEncode t cs).len.toNat = cs.length :=
  (BitVec.toNat_ofNat cs.length 32).trans (Nat.mod_eq_of_lt (by omega))

/-- The string an encoder leaves (R26) is the one it produced. -/
theorem finishEncode_textOperand (e : Engine) (t : Byte) {cs : List Byte} (h : cs.length ≤ 12) :
    (e.finishEncode t cs).textOperand = cs := by
  have hlen := finishEncode_len_toNat e t h
  refine List.ext_getElem? fun i => ?_
  by_cases hi : i < cs.length
  · have hi12 : i < 12 := by omega
    rw [textOperand_getElem? _ i (by omega) (by omega)]
    simp [Engine.txtAt, hi12, putBytes_getElem, List.getElem?_append_left hi, hi]
  · have hout := textOperand_length (e.finishEncode t cs) (by omega)
    rw [List.getElem?_eq_none (by omega), List.getElem?_eq_none (by omega)]

/-- An encoder that extracts `n` digits leaves a string of length `n`, their characters. -/
theorem finishEncode_spell (s : State) {n : Nat} (hn : n ≤ 11) (v : Value) :
    let e := s.eng.finishEncode s.rom.terminator (s.rom.spell (extractDigits n v))
    e.len.toNat = n ∧ e.textOperand = s.rom.spell (extractDigits n v) := by
  have hlen : (s.rom.spell (extractDigits n v)).length = n := by rw [spell_length, extractDigits_length]
  exact ⟨(finishEncode_len_toNat _ _ (by omega)).trans hlen, finishEncode_textOperand _ _ (by omega)⟩

/-- `ENCF` leaves the characters of eleven divider steps (R140). -/
theorem exec_encf_string (s : State) : ∃ e, exec .encf s = .next (s.setEng e) ∧ e.len.toNat = 11 ∧
    e.textOperand = s.rom.spell (extractDigits 11 s.eng.val) :=
  ⟨_, rfl, finishEncode_spell s (Nat.le_refl 11) s.eng.val⟩

/-- `ENCV` leaves the characters of `VarLen` divider steps (R131, R160). -/
theorem exec_encv_string (s : State) : ∃ e, exec .encv s = .next (s.setEng e) ∧ e.len.toNat = varLen s.eng.val ∧
    e.textOperand = s.rom.spell (extractDigits (varLen s.eng.val) s.eng.val) := by
  obtain ⟨-, hle, -, -⟩ := varLen_spec s.eng.val
  rw [← extractUntilZero_varLen]
  exact ⟨_, rfl, extractUntilZero_varLen s.eng.val ▸ finishEncode_spell s hle s.eng.val⟩

/-! ## The padding relation -/

theorem extractDigits_zero (k : Nat) : extractDigits k 0 = List.replicate k 0 := by
  have hdiv : divMod64 0 = (0, 0) := by decide
  induction k with
  | zero => rfl
  | succ k ih => rw [extractDigits, hdiv, ih, List.replicate_succ]

/-- Once `n` divider steps have exhausted the value, every further step extracts a zero (R121). -/
theorem extractDigits_add (n k : Nat) {v : Value} (h : v.toNat < 64 ^ n) :
    extractDigits (n + k) v = extractDigits n v ++ List.replicate k 0 := by
  induction n generalizing v with
  | zero =>
    obtain rfl : v = 0 := BitVec.eq_of_toNat_eq (by simpa using h)
    rw [Nat.zero_add, extractDigits_zero]
    rfl
  | succ n ih =>
    have hquot : (divMod64 v).1.toNat < 64 ^ n := by
      rw [(divMod64_toNat v).1]
      exact Nat.div_lt_of_lt_mul (by rwa [Nat.pow_succ'] at h)
    rw [Nat.succ_add, extractDigits, extractDigits, ih hquot, List.cons_append]

/-- The zeros extracted last are spelled first (R106, R123). -/
theorem spell_extractDigits_add (r : Rom) (n k : Nat) {v : Value} (h : v.toNat < 64 ^ n) :
    r.spell (extractDigits (n + k) v) = List.replicate k r.zeroSymbol ++ r.spell (extractDigits n v) := by
  simp [Rom.spell, Rom.zeroSymbol, extractDigits_add n k h]

/-- The registers of a string that is another string with `k` bytes `z` before it. -/
theorem txtAt_of_textOperand_eq_padded {e f : Engine} {k : Nat} {z : Byte} (he : e.len.toNat ≤ 12) (hf : f.len.toNat ≤ 12)
    (h : f.textOperand = List.replicate k z ++ e.textOperand) :
    (∀ i, i < k → f.txtAt i = z) ∧ ∀ i, i < e.len.toNat → f.txtAt (k + i) = e.txtAt i := by
  have hlen : f.len.toNat = k + e.len.toNat := by
    rw [← textOperand_length f hf, ← textOperand_length e he, h, List.length_append, List.length_replicate]
  constructor
  · intro i hi
    have hget := textOperand_getElem? f i hf (by omega)
    rw [h, List.getElem?_append_left (by simpa using hi), List.getElem?_replicate_of_lt hi] at hget
    exact (Option.some.inj hget).symm
  · intro i hi
    have hget := textOperand_getElem? f (k + i) hf (by omega)
    rw [h, List.getElem?_append_right (by simp), List.length_replicate, Nat.add_sub_cancel_left,
      textOperand_getElem? e i he hi] at hget
    exact (Option.some.inj hget).symm

/-- The values of eleven digits are those from `64^10` on (R81, R131). -/
theorem eleven_le_varLen_iff (v : Value) : 11 ≤ varLen v ↔ 2 ^ 60 ≤ v.toNat := by
  obtain ⟨-, -, hlt, hmin⟩ := varLen_spec v
  constructor
  · intro h
    exact hmin 10 (by omega) (by omega)
  · intro h
    by_contra hc
    have hpow : 64 ^ varLen v ≤ 64 ^ 10 := Nat.pow_le_pow_right (by omega) (by omega)
    omega

/-- Settles O13: `ENCF` extracts the digits of `ENCV` and then zeros, which its string spells first. -/
theorem fixedIsPaddedVariable : Obligations.FixedIsPaddedVariable := by
  intro s
  obtain ⟨f, hencf, hflen, hftext⟩ := exec_encf_string s
  obtain ⟨v, hencv, hvlen, hvtext⟩ := exec_encv_string s
  obtain ⟨-, hle, hlt, -⟩ := varLen_spec s.eng.val
  have hpad : f.textOperand = List.replicate (11 - v.len.toNat) s.rom.zeroSymbol ++ v.textOperand := by
    rw [hftext, hvtext, hvlen, ← spell_extractDigits_add _ _ _ hlt, Nat.add_sub_cancel' hle]
  obtain ⟨hzeros, hrest⟩ := txtAt_of_textOperand_eq_padded (by omega) (by omega) hpad
  have hsame : f.textOperand = v.textOperand ↔ 2 ^ 60 ≤ s.eng.val.toNat := by
    rw [hpad, List.append_left_eq_self, List.replicate_eq_nil_iff, Nat.sub_eq_zero_iff_le, hvlen, eleven_le_varLen_iff]
  exact ⟨s.setEng f, hencf, s.setEng v, hencv, hzeros, hrest, hsame⟩

end Sys2Proof.Machine

end

section
/-! PROOFS. The alphabet mapper (40_alphabet_mapper.md): its two lookups, which bytes are members, and what does not depend on the alphabet. -/

namespace Sys2Proof.Machine

/-! ## The two lookups -/

theorem digitOf_charOf {r : Rom} (h : r.wf) (d : Digit) : r.digitOf (r.charOf d) = some d :=
  (digitOf_eq_some_iff h _ d).2 rfl

theorem charOf_injective {r : Rom} (h : r.wf) : Function.Injective r.charOf := fun d e hde =>
  Option.some.inj <| calc
    some d = r.digitOf (r.charOf d) := (digitOf_charOf h d).symm
    _ = r.digitOf (r.charOf e) := by rw [hde]
    _ = some e := digitOf_charOf h e

/-- A member is the symbol of its digit, so two bytes with the same digit are one. -/
theorem eq_of_digitOf_eq {r : Rom} (h : r.wf) {b c : Byte} (hb : r.digitOf b ≠ none) (hbc : r.digitOf b = r.digitOf c) :
    b = c := by
  obtain ⟨d, hd⟩ := Option.ne_none_iff_exists'.1 hb
  have hcharb : r.charOf d = b := (digitOf_eq_some_iff h b d).1 hd
  have hcharc : r.charOf d = c := (digitOf_eq_some_iff h c d).1 (hbc ▸ hd)
  exact hcharb.symm.trans hcharc

/-- Settles O28: each clause is the equivalence of the two lookups, read in one direction. -/
theorem mapperLookupsAreInverse : Obligations.MapperLookupsAreInverse := fun _ h =>
  ⟨digitOf_charOf h, fun c d => (digitOf_eq_some_iff h c d).1, fun _ _ hde => charOf_injective h hde,
    fun _ _ => eq_of_digitOf_eq h⟩

/-! ## The members -/

/-- The members are the symbols of the alphabet (R75). -/
theorem digitOf_ne_none_iff {r : Rom} (h : r.wf) (c : Byte) : r.digitOf c ≠ none ↔ ∃ d, r.charOf d = c := by
  simp only [Option.ne_none_iff_exists', digitOf_eq_some_iff h]

theorem charOf_mem_alphabet (r : Rom) (d : Digit) : r.charOf d ∈ r.encRom.toList :=
  Vector.mem_toList_iff.2 (Vector.getElem_mem d.isLt)

/-- A byte that no place of the alphabet holds is no member. -/
theorem digitOf_eq_none_of_not_mem {r : Rom} (h : r.wf) {c : Byte} (hc : c ∉ r.encRom.toList) : r.digitOf c = none := by
  by_contra hmember
  obtain ⟨d, rfl⟩ := (digitOf_ne_none_iff h c).1 hmember
  exact hc (charOf_mem_alphabet r d)

theorem digitOf_terminator {r : Rom} (h : r.wf) : r.digitOf r.terminator = none := by
  obtain ⟨-, -, hterminator⟩ := (alphabetOk_iff _ _).1 h.1
  exact digitOf_eq_none_of_not_mem h hterminator

theorem digitOf_of_not_printable {r : Rom} (h : r.wf) {c : Byte} (hc : c.toNat ≤ 0x20 ∨ 0x7F ≤ c.toNat) :
    r.digitOf c = none := by
  obtain ⟨-, hprintable, -⟩ := (alphabetOk_iff _ _).1 h.1
  refine digitOf_eq_none_of_not_mem h fun hmem => ?_
  have hrange : 0x21 ≤ c.toNat ∧ c.toNat ≤ 0x7E := by simpa [printable] using hprintable c hmem
  omega

theorem card_word (n : Nat) : Fintype.card (BitVec n) = 2 ^ n :=
  (Fintype.card_congr BitVec.equivFin.toEquiv).trans (Fintype.card_fin _)

/-- There are as many members as digits, since `CharOf` is injective (R100, R103). -/
theorem card_members {r : Rom} (h : r.wf) : (Finset.univ.filter fun c : Byte => r.digitOf c ≠ none).card = 64 := by
  have himage : (Finset.univ.filter fun c : Byte => r.digitOf c ≠ none) = Finset.univ.image r.charOf := by
    ext c
    simp [digitOf_ne_none_iff h]
  rw [himage]
  exact (Finset.card_image_of_injective _ (charOf_injective h)).trans (card_word 6)

theorem card_nonMembers {r : Rom} (h : r.wf) : (Finset.univ.filter fun c : Byte => r.digitOf c = none).card = 192 := by
  have hsum := Finset.card_filter_add_card_filter_not (s := (Finset.univ : Finset Byte)) (fun c => r.digitOf c = none)
  have hmembers := card_members h
  rw [Finset.card_univ, card_word, hmembers] at hsum
  omega

/-- Settles O27: the members are the 64 images of the digits, and the alphabet leaves out the other bytes named. -/
theorem mapperMembership : Obligations.MapperMembership := fun _ h =>
  ⟨card_members h, card_nonMembers h, digitOf_terminator h, fun _ => digitOf_of_not_printable h⟩

/-! ## Texts of the same digits -/

/-- Two strings of one length have the same digits over their ROMs when their registers do, place by place (R26). -/
theorem map_digitOf_textOperand_eq_iff {r q : Rom} {e f : Engine} (hlen : e.len = f.len) (hle : e.len.toNat ≤ 12) :
    e.textOperand.map r.digitOf = f.textOperand.map q.digitOf ↔
      ∀ i, i < e.len.toNat → r.digitOf (e.txtAt i) = q.digitOf (f.txtAt i) := by
  have hget : ∀ i, i < e.len.toNat →
      (e.textOperand.map r.digitOf)[i]? = some (r.digitOf (e.txtAt i)) ∧
      (f.textOperand.map q.digitOf)[i]? = some (q.digitOf (f.txtAt i)) := by
    intro i hi
    rw [List.getElem?_map, List.getElem?_map, textOperand_getElem? e i hle hi,
      textOperand_getElem? f i (hlen ▸ hle) (hlen ▸ hi)]
    exact ⟨rfl, rfl⟩
  constructor
  · intro h i hi
    obtain ⟨hgete, hgetf⟩ := hget i hi
    exact Option.some.inj (hgete.symm.trans (h ▸ hgetf))
  · intro h
    have hlene := textOperand_length e hle
    have hlenf := textOperand_length f (hlen ▸ hle)
    refine List.ext_getElem? fun i => ?_
    by_cases hi : i < e.len.toNat
    · obtain ⟨hgete, hgetf⟩ := hget i hi
      rw [hgete, hgetf, h i hi]
    · rw [List.getElem?_eq_none (by rw [List.length_map]; omega),
        List.getElem?_eq_none (by rw [List.length_map, hlenf, ← hlen]; omega)]

/-- The look-up of a string answers from the digits of its bytes alone (R103). -/
theorem lookupAll_congr {r q : Rom} {cs bs : List Byte} (h : cs.map r.digitOf = bs.map q.digitOf) :
    r.lookupAll cs = q.lookupAll bs :=
  Option.ext fun ds => by rw [lookupAll_eq_some_iff, lookupAll_eq_some_iff, h]

/-- The look-ups of two strings of one admitted length agree when their registers have the same digits. -/
theorem lookupAll_textOperand_congr {r q : Rom} {e f : Engine} (hlen : e.len = f.len) (hle : e.len.toNat ≤ 12)
    (h : ∀ i, i < e.len.toNat → r.digitOf (e.txtAt i) = q.digitOf (f.txtAt i)) :
    r.lookupAll e.textOperand = q.lookupAll f.textOperand :=
  lookupAll_congr ((map_digitOf_textOperand_eq_iff hlen hle).2 h)

/-! ## The decoders -/

theorem decodeFixed_congr_digits {r q : Rom} {e f : Engine} (hlen : e.len = f.len)
    (h : ∀ i, i < e.len.toNat → r.digitOf (e.txtAt i) = q.digitOf (f.txtAt i)) : decodeFixed r e = decodeFixed q f := by
  unfold decodeFixed
  simp only [Engine.lengthOperand, ← hlen]
  by_cases h11 : e.len.toNat = 11
  · simp [h11, lookupAll_textOperand_congr hlen (by omega) h]
  · simp [h11]

theorem decodeVariable_congr_digits {r q : Rom} {e f : Engine} (hlen : e.len = f.len)
    (h : ∀ i, i < e.len.toNat → r.digitOf (e.txtAt i) = q.digitOf (f.txtAt i)) :
    decodeVariable r e = decodeVariable q f := by
  unfold decodeVariable
  simp only [Engine.lengthOperand, ← hlen]
  by_cases hok : variableLengthOk e.len.toNat = true
  · obtain ⟨-, hle⟩ := (variableLengthOk_iff _).1 hok
    simp [hok, lookupAll_textOperand_congr hlen (by omega) h]
  · simp [hok]

/-- A decoder has one outcome on two texts of the same length and digits, each over its own ROM (R110). -/
theorem exec_decoder_congr_digits {s u : State} {m : Instr} (hm : m = .decf ∨ m = .decv) (hlen : s.eng.len = u.eng.len)
    (h : ∀ i, i < s.eng.len.toNat → s.rom.digitOf (s.eng.txtAt i) = u.rom.digitOf (u.eng.txtAt i)) :
    ∃ o, exec m s = .next (s.setEng (s.eng.finishDecode s.inst o)) ∧
      exec m u = .next (u.setEng (u.eng.finishDecode u.inst o)) := by
  obtain rfl | rfl := hm
  · exact ⟨decodeFixed s.rom s.eng, rfl, by rw [decodeFixed_congr_digits hlen h]; rfl⟩
  · exact ⟨decodeVariable s.rom s.eng, rfl, by rw [decodeVariable_congr_digits hlen h]; rfl⟩

theorem statusFailure_ne_success (k : ErrorKind) : statusFailure k ≠ 0x1 := by cases k <;> decide

/-- The outcome of a decoder fixes `STATUS`, and `VAL` after a success; after a failure `VAL` is a free value of the engine (R11). -/
theorem finishDecode_congr (e f : Engine) (i j : Nat) (o : Except ErrorKind Value) :
    (e.finishDecode i o).status = (f.finishDecode j o).status ∧
      ((e.finishDecode i o).status = 0x1 → (e.finishDecode i o).val = (f.finishDecode j o).val) := by
  cases o with
  | ok v => exact ⟨rfl, fun _ => rfl⟩
  | error k => exact ⟨rfl, fun hsuccess => absurd hsuccess (statusFailure_ne_success k)⟩

/-! ## The encoders -/

/-- The digits an encoder spells are fixed by the value; the ROM only gives them their characters (R110, R123). -/
theorem exec_encoder_digits {m : Instr} (hm : m = .encf ∨ m = .encv) (v : Value) :
    ∃ ds : List Digit, ds.length ≤ 11 ∧ ∀ s : State, s.eng.val = v →
      ∃ e, exec m s = .next (s.setEng e) ∧ e.len.toNat = ds.length ∧ e.textOperand = s.rom.spell ds := by
  obtain rfl | rfl := hm
  · refine ⟨extractDigits 11 v, (extractDigits_length 11 v).le, ?_⟩
    rintro s rfl
    rw [extractDigits_length]
    exact exec_encf_string s
  · obtain ⟨-, hle, -, -⟩ := varLen_spec v
    refine ⟨extractDigits (varLen v) v, (extractDigits_length _ v).trans_le hle, ?_⟩
    rintro s rfl
    rw [extractDigits_length]
    exact exec_encv_string s

/-- The digits of a spelled string are the digits it was spelled from, in reverse order of extraction (R123). -/
theorem map_digitOf_spell {r : Rom} (h : r.wf) (ds : List Digit) : (r.spell ds).map r.digitOf = ds.reverse.map some := by
  simp [Rom.spell, Function.comp_def, digitOf_charOf h]

/-- Settles O38: an encoder spells digits that the value fixes, and a decoder reads digits only. -/
theorem resultsDoNotDependOnAlphabet : Obligations.ResultsDoNotDependOnAlphabet := by
  intro s u hs hu
  constructor
  · intro m hm hval
    obtain ⟨ds, hle, hexec⟩ := exec_encoder_digits hm s.eng.val
    obtain ⟨e, he, helen, hetext⟩ := hexec s rfl
    obtain ⟨f, hf, hflen, hftext⟩ := hexec u hval.symm
    have hlen : e.len = f.len := BitVec.eq_of_toNat_eq (helen.trans hflen.symm)
    have hdigits : e.textOperand.map s.rom.digitOf = f.textOperand.map u.rom.digitOf := by
      rw [hetext, hftext, map_digitOf_spell hs, map_digitOf_spell hu]
    exact ⟨s.setEng e, he, u.setEng f, hf, hlen, (map_digitOf_textOperand_eq_iff hlen (by omega)).1 hdigits⟩
  · intro m hm hlen hdigits
    obtain ⟨o, hso, huo⟩ := exec_decoder_congr_digits hm hlen hdigits
    exact ⟨_, hso, _, huo, finishDecode_congr s.eng u.eng s.inst u.inst o⟩

end Sys2Proof.Machine

end

section
/-! PROOFS. The digit arithmetic (41_digit_arithmetic.md): the shifted overflow detector, where accumulation overflows, and the length function. -/

namespace Sys2Proof.Machine

/-! ## The overflow detector -/

/-- The shifted form of the step (R125) meets the same two clauses as the widened one (`mulAdd64_spec`): the six bits tested are what the
shift would push out, and the bits kept are the exact result when those are zero. -/
theorem mulAdd64Shifted_spec (acc : Value) (d : Digit) :
    ((mulAdd64Shifted acc d).1 = true ↔ 2 ^ 64 ≤ acc.toNat * 64 + d.toNat) ∧
      ((mulAdd64Shifted acc d).1 = false → (mulAdd64Shifted acc d).2.toNat = acc.toNat * 64 + d.toNat) := by
  have hacc : acc.toNat < 2 ^ 64 := acc.isLt
  have hd : d.toNat < 2 ^ 6 := d.isLt
  have hhigh : (acc.extractLsb' 58 6).toNat = acc.toNat / 2 ^ 58 := by
    rw [BitVec.extractLsb'_toNat, Nat.shiftRight_eq_div_pow]
    omega
  have hkept : (mulAdd64Shifted acc d).2.toNat = acc.toNat % 2 ^ 58 * 2 ^ 6 + d.toNat := by
    simp only [mulAdd64Shifted, BitVec.toNat_append, BitVec.extractLsb'_toNat, Nat.shiftRight_zero]
    exact (Nat.shiftLeft_add_eq_or_of_lt hd _).symm.trans (by rw [Nat.shiftLeft_eq])
  have hov : (mulAdd64Shifted acc d).1 = true ↔ acc.toNat / 2 ^ 58 ≠ 0 := by
    rw [← hhigh]
    simp [mulAdd64Shifted, ← BitVec.toNat_inj]
  constructor
  · rw [hov]
    omega
  · intro hfits
    rw [← Bool.not_eq_true, hov] at hfits
    omega

/-- Settles O29: both forms report that the exact result needs more than 64 bits, and otherwise keep that result. -/
theorem overflowDetectorFormsAgree : Obligations.OverflowDetectorFormsAgree := by
  intro acc d
  obtain ⟨hwide, hwideResult⟩ := mulAdd64_spec acc d
  obtain ⟨hshifted, hshiftedResult⟩ := mulAdd64Shifted_spec acc d
  have hbit : (mulAdd64 acc d).1 = (mulAdd64Shifted acc d).1 := Bool.eq_iff_iff.2 (hwide.trans hshifted.symm)
  refine ⟨hbit, fun hfits => BitVec.eq_of_toNat_eq ?_⟩
  rw [hwideResult hfits, hshiftedResult (hbit ▸ hfits)]

/-! ## Where accumulation overflows -/

theorem digitsValue_cons (d : Digit) (ds : List Digit) :
    digitsValue (d :: ds) = d.toNat * 64 ^ ds.length + digitsValue ds := rfl

/-- Accumulation overflows (R126) exactly when the value of the digits does not fit in 64 bits (R127). -/
theorem accumulate_zero_eq_none_iff (ds : List Digit) : accumulate 0 ds = none ↔ 2 ^ 64 ≤ digitsValue ds := by
  have hsome (v : Value) : accumulate 0 ds = some v ↔ v.toNat = digitsValue ds := by
    simpa using accumulate_eq_some_iff 0 ds v
  constructor
  · intro hnone
    by_contra hlt
    have hfits := (hsome (BitVec.ofNat 64 (digitsValue ds))).2 (Nat.mod_eq_of_lt (by omega))
    rw [hnone] at hfits
    cases hfits
  · intro hge
    refine Option.eq_none_iff_forall_ne_some.2 fun v hv => ?_
    have hvalue := (hsome v).1 hv
    have hlt := v.isLt
    omega

/-- Settles O30: ten digits are worth less than `64^10 = 2^60`, and the eleventh is worth `2^60` times its digit on top. -/
theorem overflowOnlyAtEleventhDigit : Obligations.OverflowOnlyAtEleventhDigit := by
  constructor
  · intro ds hlen
    have hlt := digitsValue_lt ds
    have hpow : 64 ^ ds.length ≤ 64 ^ 10 := Nat.pow_le_pow_right (by decide) hlen
    rw [ne_eq, accumulate_zero_eq_none_iff]
    omega
  · intro d ds hlen
    have hlt := digitsValue_lt ds
    rw [hlen] at hlt
    rw [accumulate_zero_eq_none_iff, digitsValue_cons, hlen]
    omega

/-! ## The length function -/

/-- `VarLen(v)` is the least length, from 1 on, that holds `v` (R131). -/
theorem varLen_le_iff (v : Value) {n : Nat} (hn : 1 ≤ n) : varLen v ≤ n ↔ v.toNat < 2 ^ (6 * n) := by
  obtain ⟨-, -, hlt, hmin⟩ := varLen_spec v
  rw [Nat.pow_mul]
  constructor
  · intro hle
    exact hlt.trans_le (Nat.pow_le_pow_right (by decide) hle)
  · intro hfits
    by_contra hgt
    exact (hmin n hn (by omega)).not_gt hfits

/-- Settles O31: a value has length `n` when it fits in `n` digits and not in `n - 1`. -/
theorem lengthFunctionTable : Obligations.LengthFunctionTable := by
  intro v
  obtain ⟨hpos, hle, -, -⟩ := varLen_spec v
  refine ⟨?one, ?between, ?eleven, hpos, hle⟩
  case one =>
    have hone := varLen_le_iff v (n := 1) (Nat.le_refl 1)
    omega
  case between =>
    intro n h2 h10
    have hfits := varLen_le_iff v (n := n) (by omega)
    have hshorter := varLen_le_iff v (n := n - 1) (by omega)
    have hpow : 0 < 2 ^ (6 * n) := Nat.two_pow_pos _
    omega
  case eleven =>
    rw [← eleven_le_varLen_iff]
    omega

end Sys2Proof.Machine

end

section
/-! PROOFS. The fixed codec (42_fixed_codec.md): the result of `ENCF`, the outcomes of `DECF`, and the round trips between them. -/

namespace Sys2Proof.Machine

/-! ## The result of an encoder -/

/-- The registers an encoder of `n` digits leaves (R25, R123): the characters, most significant first, the terminator, the rest unchanged. -/
theorem putBytes_spell_getElem (r : Rom) {n : Nat} (v : Value) (b : Byte) (t : Vector Byte 12) (j : Nat) (hj : j < 12) :
    (putBytes 0 (r.spell (extractDigits n v) ++ [b]) t)[j] =
      if j < n then r.charOf (BitVec.ofNat 6 (v.toNat / 64 ^ (n - 1 - j) % 64)) else if j = n then b else t[j] := by
  have hlen : (r.spell (extractDigits n v)).length = n := by rw [spell_length, extractDigits_length]
  rw [putBytes_getElem _ _ _ _ hj, if_pos (Nat.zero_le j), Nat.sub_zero]
  obtain hlt | rfl | hgt := Nat.lt_trichotomy j n
  · rw [List.getElem?_append_left (by omega), spell_extractDigits_getElem? r n v j hlt, if_pos hlt, Option.getD_some]
  · simp [hlen]
  · rw [List.getElem?_eq_none (by rw [List.length_append, hlen]; exact hgt), if_neg (by omega), if_neg (by omega),
      Option.getD_none]

/-- Settles O9: eleven characters and the terminator fill the twelve text registers. -/
theorem encfResult : Obligations.EncfResult := by
  intro s
  have htxt : putBytes 0 (s.rom.spell (extractDigits 11 s.eng.val) ++ [s.rom.terminator]) s.eng.txt =
      Vector.ofFn (fun i : Fin 12 =>
        if i.val < 11 then s.rom.charOf (BitVec.ofNat 6 (s.eng.val.toNat / 64 ^ (10 - i.val) % 64))
        else s.rom.terminator) := by
    ext1 j hj
    rw [putBytes_spell_getElem _ _ _ _ j hj, Vector.getElem_ofFn]
    by_cases hlt : j < 11
    · simp only [if_pos hlt]
    · simp only [if_neg hlt, if_pos (show j = 11 by omega)]
  rw [← htxt]
  rfl

theorem txtAt_of_lt (e : Engine) {i : Nat} (hi : i < 12) : e.txtAt i = e.txt[i] := by simp [Engine.txtAt, hi]

/-- Settles O11: what `ENCF` writes in the first eleven registers is `CharOf` of some digit. -/
theorem encfWritesElevenMembers : Obligations.EncfWritesElevenMembers := by
  intro s hwf
  refine ⟨_, encfResult s, rfl, fun i hi => ?_, ?_⟩
  · rw [txtAt_of_lt _ (by omega), digitOf_ne_none_iff hwf]
    simp only [setEng_eng, Vector.getElem_ofFn, if_pos hi]
    exact ⟨_, rfl⟩
  · rw [txtAt_of_lt _ (by omega)]
    simp

/-! ## The digits of a text -/

/-- The digits of the text, most significant first. -/
def Engine.digits (r : Rom) (e : Engine) : List Digit := (List.range e.len.toNat).map (e.digitAt r)

/-- The value of a digit string is its weighted sum (R127). -/
theorem digitsValue_map_range (f : Nat → Digit) (n : Nat) :
    digitsValue ((List.range n).map f) = ∑ i ∈ Finset.range n, (f i).toNat * weight n i := by
  induction n generalizing f with
  | zero => rfl
  | succ n ih =>
    have hweight (i : Nat) : weight (n + 1) (i + 1) = weight n i := by
      simp only [weight, show n + 1 - 1 - (i + 1) = n - 1 - i by omega]
    rw [List.range_succ_eq_map, List.map_cons, List.map_map, digitsValue, ih, Finset.sum_range_succ']
    simp [hweight, Nat.add_comm]

theorem digitsValue_digits (r : Rom) (e : Engine) : digitsValue (e.digits r) = e.textValue r :=
  digitsValue_map_range (e.digitAt r) e.len.toNat

/-- The digits of a text of length `n + 1`: the first, and `n` more. -/
theorem digits_eq_cons (r : Rom) (e : Engine) {n : Nat} (h : e.len.toNat = n + 1) :
    ∃ ds, ds.length = n ∧ e.digits r = e.digitAt r 0 :: ds :=
  ⟨(List.range n).map (fun i => e.digitAt r (i + 1)), by simp, by simp [Engine.digits, h, List.range_succ_eq_map]⟩

/-- The digits of eleven characters fit in 64 bits exactly when the first is at most 15 (R128). -/
theorem textValue_lt_iff (r : Rom) (e : Engine) (h : e.len.toNat = 11) :
    e.textValue r < 2 ^ 64 ↔ (e.digitAt r 0).toNat ≤ 15 := by
  obtain ⟨ds, hlen, hdigits⟩ := digits_eq_cons r e h
  obtain ⟨-, heleven⟩ := overflowOnlyAtEleventhDigit
  have hoverflow := heleven (e.digitAt r 0) ds hlen
  rw [accumulate_zero_eq_none_iff, ← hdigits, digitsValue_digits] at hoverflow
  omega

/-- The look-up of a text of members answers its digits (R141). -/
theorem lookupAll_of_allMembers {r : Rom} {e : Engine} (hle : e.len.toNat ≤ 12) (h : e.allMembers r) :
    r.lookupAll e.textOperand = some (e.digits r) := by
  rw [lookupAll_eq_some_iff]
  refine List.ext_getElem? fun i => ?_
  by_cases hi : i < e.len.toNat
  · obtain ⟨d, hd⟩ := Option.isSome_iff_exists.1 (h i hi)
    simp [textOperand_getElem? e i hle hi, Engine.digits, Engine.digitAt, hi, hd]
  · have hlen := textOperand_length e hle
    rw [List.getElem?_eq_none (by rw [List.length_map]; omega),
      List.getElem?_eq_none (by simpa [Engine.digits] using hi)]

/-- The look-up of a text with a non-member fails (R141). -/
theorem lookupAll_of_not_allMembers {r : Rom} {e : Engine} (hle : e.len.toNat ≤ 12) (h : ¬ e.allMembers r) :
    r.lookupAll e.textOperand = none := by
  obtain ⟨i, hi, hnot⟩ : ∃ i, i < e.len.toNat ∧ ¬ r.isMember (e.txtAt i) = true := by simpa [Engine.allMembers] using h
  exact (lookupAll_eq_none_iff _ _).2
    ⟨e.txtAt i, List.mem_of_getElem? (textOperand_getElem? e i hle hi), Option.not_isSome_iff_eq_none.1 hnot⟩

/-! ## The outcome of `DECF` -/

theorem exec_decf_eq (s : State) :
    exec .decf s = .next (s.setEng (s.eng.finishDecode s.inst (decodeFixed s.rom s.eng))) := rfl

/-- A decoder whose outcome is an error ends with its word and leaves all but `VAL` and the counter of draws (R204). -/
theorem endsWithError_of_outcome {m : Instr} {s : State} {k : ErrorKind}
    (h : exec m s = .next (s.setEng (s.eng.finishDecode s.inst (.error k)))) : endsWithError m s (statusFailure k) :=
  ⟨_, _, h⟩

/-- A decoder succeeds with a value exactly when that is its outcome (R11): an error leaves another status. -/
theorem succeedsWith_iff_of_outcome {m : Instr} {s : State} {o : Except ErrorKind Value}
    (h : exec m s = .next (s.setEng (s.eng.finishDecode s.inst o))) (v : Value) : succeedsWith m s v ↔ o = .ok v := by
  constructor
  · intro hsucceeds
    have heng : s.eng.finishDecode s.inst o = { s.eng with status := 0x00000001, val := v } :=
      congrArg State.eng (Host.Outcome.next.inj (h.symm.trans hsucceeds))
    cases o with
    | ok w => exact congrArg Except.ok (congrArg Engine.val heng)
    | error k => exact absurd (congrArg Engine.status heng) (statusFailure_ne_success k)
  · rintro rfl
    exact h

theorem decodeFixed_of_len_ne (r : Rom) {e : Engine} (h : e.len.toNat ≠ 11) :
    decodeFixed r e = .error .invalidLength := if_pos h

theorem decodeFixed_of_lookupAll_none {r : Rom} {e : Engine} (h : e.len.toNat = 11)
    (hlookup : r.lookupAll e.textOperand = none) : decodeFixed r e = .error .invalidCharacter := by
  simp [decodeFixed, Engine.lengthOperand, h, hlookup]

theorem decodeFixed_of_lookupAll_some {r : Rom} {e : Engine} {ds : List Digit} (h : e.len.toNat = 11)
    (hlookup : r.lookupAll e.textOperand = some ds) : decodeFixed r e = accumulateOutcome ds := by
  simp [decodeFixed, Engine.lengthOperand, h, hlookup]

/-- On eleven members the outcome is decided by the value of the digits (R141). -/
theorem decodeFixed_of_allMembers {r : Rom} {e : Engine} (h : e.len.toNat = 11) (hmembers : e.allMembers r) :
    decodeFixed r e = if e.textValue r < 2 ^ 64 then .ok (BitVec.ofNat 64 (e.textValue r)) else .error .outOfRange := by
  rw [decodeFixed_of_lookupAll_some h (lookupAll_of_allMembers (by omega) hmembers), accumulateOutcome_eq,
    digitsValue_digits]

/-- Settles O14: one clause for each way the checks of `DECF` can end, in their order. -/
theorem decfOutcome : Obligations.DecfOutcome := by
  intro s
  have herror {k : ErrorKind} (h : decodeFixed s.rom s.eng = .error k) : endsWithError .decf s (statusFailure k) :=
    endsWithError_of_outcome (h ▸ exec_decf_eq s)
  refine ⟨?length, ?character, ?range, ?success⟩
  case length => exact fun hlen => herror (decodeFixed_of_len_ne _ hlen)
  case character =>
    exact fun hlen hnot => herror (decodeFixed_of_lookupAll_none hlen (lookupAll_of_not_allMembers (by omega) hnot))
  case range =>
    intro hlen hmembers hfirst
    have hvalue := textValue_lt_iff s.rom s.eng hlen
    exact herror ((decodeFixed_of_allMembers hlen hmembers).trans (if_neg (by omega)))
  case success =>
    intro hlen hmembers hfirst
    have hfits := (textValue_lt_iff s.rom s.eng hlen).2 hfirst
    exact ⟨hfits, (succeedsWith_iff_of_outcome (exec_decf_eq s) _).2
      ((decodeFixed_of_allMembers hlen hmembers).trans (if_pos hfits))⟩

/-! ## The round trips -/

theorem accumulateOutcome_eq_ok_iff (ds : List Digit) (v : Value) :
    accumulateOutcome ds = .ok v ↔ digitsValue ds = v.toNat := by
  have hlt := v.isLt
  rw [accumulateOutcome_eq]
  split
  · next hfits =>
    rw [Except.ok.injEq, ← BitVec.toNat_inj, BitVec.toNat_ofNat, Nat.mod_eq_of_lt hfits]
  · next hover => exact iff_of_false (by simp) (by omega)

/-- `DECF` succeeds exactly on eleven members whose digits are worth the value. -/
theorem decf_succeedsWith_iff (s : State) (v : Value) :
    succeedsWith .decf s v ↔
      s.eng.len.toNat = 11 ∧ ∃ ds, s.rom.lookupAll s.eng.textOperand = some ds ∧ digitsValue ds = v.toNat := by
  rw [succeedsWith_iff_of_outcome (exec_decf_eq s)]
  constructor
  · intro hok
    by_cases hlen : s.eng.len.toNat = 11
    · cases hlookup : s.rom.lookupAll s.eng.textOperand with
      | none =>
        rw [decodeFixed_of_lookupAll_none hlen hlookup] at hok
        cases hok
      | some ds =>
        rw [decodeFixed_of_lookupAll_some hlen hlookup, accumulateOutcome_eq_ok_iff] at hok
        exact ⟨hlen, ds, rfl, hok⟩
    · rw [decodeFixed_of_len_ne _ hlen] at hok
      cases hok
  · rintro ⟨hlen, ds, hlookup, hvalue⟩
    rw [decodeFixed_of_lookupAll_some hlen hlookup, accumulateOutcome_eq_ok_iff]
    exact hvalue

/-- A digit string read from its least significant end (R127). -/
theorem digitsValue_concat (ds : List Digit) (d : Digit) : digitsValue (ds ++ [d]) = digitsValue ds * 64 + d.toNat := by
  induction ds with
  | nil => simp [digitsValue, weight]
  | cons c ds ih =>
    rw [List.cons_append, digitsValue_cons, digitsValue_cons, ih, List.length_append, List.length_singleton, Nat.pow_succ]
    ring

/-- The extracted digits, most significant first, are worth the value when there are enough of them (R121). -/
theorem digitsValue_reverse_extractDigits (n : Nat) {v : Value} (h : v.toNat < 64 ^ n) :
    digitsValue (extractDigits n v).reverse = v.toNat := by
  induction n generalizing v with
  | zero =>
    rw [Nat.pow_zero] at h
    exact (Nat.lt_one_iff.1 h).symm
  | succ n ih =>
    obtain ⟨hquot, hrem⟩ := divMod64_toNat v
    have hlt : (divMod64 v).1.toNat < 64 ^ n := by
      rw [hquot]
      exact Nat.div_lt_of_lt_mul (by rwa [Nat.pow_succ'] at h)
    rw [extractDigits, List.reverse_cons, digitsValue_concat, ih hlt, hquot, hrem]
    omega

/-- The digits extracted from the value of a digit string are the string, least significant first (R121, R127). -/
theorem extractDigits_of_digitsValue {ds : List Digit} {v : Value} (h : digitsValue ds = v.toNat) :
    extractDigits ds.length v = ds.reverse := by
  induction ds using List.reverseRecOn generalizing v with
  | nil => rfl
  | append_singleton ds d ih =>
    have hd : d.toNat < 64 := d.isLt
    obtain ⟨hquot, hrem⟩ := divMod64_toNat v
    rw [digitsValue_concat] at h
    have hlast : (divMod64 v).2 = d := BitVec.eq_of_toNat_eq (by omega)
    rw [List.length_append, List.length_singleton, extractDigits, ih (by omega), hlast, List.reverse_concat]

/-- The look-up of a spelled string answers the digits it was spelled from (R104, R123). -/
theorem lookupAll_spell {r : Rom} (h : r.wf) (ds : List Digit) : r.lookupAll (r.spell ds) = some ds.reverse :=
  (lookupAll_eq_some_iff _ _ _).2 (map_digitOf_spell h ds)

/-- A string whose look-up answers is the spelling of its digits (R104, R123). -/
theorem spell_reverse_of_lookupAll {r : Rom} (h : r.wf) {cs : List Byte} {ds : List Digit}
    (hlookup : r.lookupAll cs = some ds) : r.spell ds.reverse = cs := by
  have hdigits := (lookupAll_eq_some_iff r cs ds).1 hlookup
  rw [← List.forall₂_eq_eq_eq, List.forall₂_map_left_iff, List.forall₂_map_right_iff] at hdigits
  simp only [digitOf_eq_some_iff h] at hdigits
  rw [Rom.spell, List.reverse_reverse, ← List.forall₂_eq_eq_eq, List.forall₂_map_left_iff]
  exact hdigits.flip

/-- Two texts of one length are equal when their registers are. -/
theorem txtAt_eq_of_textOperand_eq {e f : Engine} (he : e.len.toNat ≤ 12) (hlen : f.len.toNat = e.len.toNat)
    (h : f.textOperand = e.textOperand) (i : Nat) (hi : i < e.len.toNat) : f.txtAt i = e.txtAt i := by
  have hget := textOperand_getElem? f i (by omega) (by omega)
  rw [h, textOperand_getElem? e i he hi] at hget
  exact (Option.some.inj hget).symm

/-- `DECF` succeeds on every state that holds the string `ENCF` left (R144). -/
theorem decf_succeedsWith_of_encf {s : State} (hwf : s.rom.wf) {e : Engine} (hlen : e.len.toNat = 11)
    (htext : e.textOperand = s.rom.spell (extractDigits 11 s.eng.val)) {u : State} (hu : holdsStringOf (s.setEng e) u) :
    succeedsWith .decf u s.eng.val := by
  obtain ⟨hrom, hulen, hutxt⟩ := hu
  have hstring : u.eng.textOperand = s.rom.spell (extractDigits 11 s.eng.val) :=
    (textOperand_congr hulen hutxt (by simp [hlen])).trans htext
  have hfits : s.eng.val.toNat < 64 ^ 11 := s.eng.val.isLt.trans (by norm_num)
  refine (decf_succeedsWith_iff u _).2 ⟨(congrArg BitVec.toNat hulen).trans hlen, (extractDigits 11 s.eng.val).reverse, ?_,
    digitsValue_reverse_extractDigits 11 hfits⟩
  rw [hstring, hrom]
  exact lookupAll_spell hwf _

/-- Settles O22: the extracted digits are worth the value, and the value of a digit string extracts to that string. -/
theorem fixedCodecRoundTrip : Obligations.FixedCodecRoundTrip := by
  intro s hwf
  constructor
  · obtain ⟨e, hexec, hlen, htext⟩ := exec_encf_string s
    exact ⟨s.setEng e, hexec, fun u hu => decf_succeedsWith_of_encf hwf hlen htext hu⟩
  · intro v hsucceeds t hrom hval
    obtain ⟨hlen, ds, hlookup, hvalue⟩ := (decf_succeedsWith_iff s v).1 hsucceeds
    obtain ⟨e, hexec, helen, hetext⟩ := exec_encf_string t
    have hds : ds.length = 11 := by
      rw [lookupAll_length hlookup, textOperand_length _ (by omega), hlen]
    have hstring : e.textOperand = s.eng.textOperand := by
      rw [hetext, hval, ← hds, extractDigits_of_digitsValue hvalue, hrom, spell_reverse_of_lookupAll hwf hlookup]
    refine ⟨t.setEng e, hexec, fun i hi => ?_⟩
    exact txtAt_eq_of_textOperand_eq (by omega) (by omega) hstring i (by omega)

end Sys2Proof.Machine

end

section
/-! PROOFS. The variable codec (43_variable_codec.md): the result of `ENCV`, the outcomes of `DECV`, and the round trips between them. -/

namespace Sys2Proof.Machine

/-! ## The result of `ENCV` -/

/-- `VarLen(v)` is the least length, from 1 on, whose digits hold `v` (R131). -/
theorem varLen_le_iff_lt_pow (v : Value) {n : Nat} (hn : 1 ≤ n) : varLen v ≤ n ↔ v.toNat < 64 ^ n := by
  rw [varLen_le_iff v hn, Nat.pow_mul]

theorem varLen_eq_of_least {v : Value} {n : Nat} (hn : 1 ≤ n) (hlt : v.toNat < 64 ^ n)
    (hmin : ∀ m, 1 ≤ m → m < n → 64 ^ m ≤ v.toNat) : varLen v = n := by
  obtain ⟨hpos, -, hfits, -⟩ := varLen_spec v
  refine Nat.le_antisymm ((varLen_le_iff_lt_pow v hn).2 hlt) ?_
  by_contra hshorter
  exact (hmin (varLen v) hpos (by omega)).not_gt hfits

/-- `ENCV` ends with the characters of `VarLen` divider steps (R131, R160). -/
theorem exec_encv_eq (s : State) :
    exec .encv s = .next (s.setEng (s.eng.finishEncode s.rom.terminator
      (s.rom.spell (extractDigits (varLen s.eng.val) s.eng.val)))) := by
  rw [← extractUntilZero_varLen]
  rfl

/-- Settles O10: the least number of digits is `VarLen`, and those are the digits spelled. -/
theorem encvResult : Obligations.EncvResult := by
  intro s n hn hlt hmin
  have htxt : putBytes 0 (s.rom.spell (extractDigits n s.eng.val) ++ [s.rom.terminator]) s.eng.txt =
      Vector.ofFn (fun i : Fin 12 =>
        if i.val < n then s.rom.charOf (BitVec.ofNat 6 (s.eng.val.toNat / 64 ^ (n - 1 - i.val) % 64))
        else if i.val = n then s.rom.terminator else s.eng.txt[i]) := by
    ext1 j hj
    rw [putBytes_spell_getElem _ _ _ _ j hj, Vector.getElem_ofFn]
    rfl
  have hlen : (s.rom.spell (extractDigits n s.eng.val)).length = n := by rw [spell_length, extractDigits_length]
  rw [exec_encv_eq, varLen_eq_of_least hn hlt hmin, Engine.finishEncode, htxt, hlen]
  rfl

/-! ## The outcome of `DECV` -/

theorem exec_decv_eq (s : State) :
    exec .decv s = .next (s.setEng (s.eng.finishDecode s.inst (decodeVariable s.rom s.eng))) := rfl

/-- The canonical-form check fails on a first digit 0 with more digits after it (R163). -/
theorem nonCanonical_cons_iff (d : Digit) (ds : List Digit) : nonCanonical (d :: ds) = true ↔ 1 ≤ ds.length ∧ d = 0 := by
  cases ds with
  | nil => simp [nonCanonical]
  | cons e es => simp [nonCanonical]

theorem nonCanonical_digits_iff (r : Rom) {e : Engine} (h : 1 ≤ e.len.toNat) :
    nonCanonical (e.digits r) = true ↔ 2 ≤ e.len.toNat ∧ e.digitAt r 0 = 0 := by
  obtain ⟨ds, hlen, hdigits⟩ := digits_eq_cons r e (Nat.sub_add_cancel h).symm
  rw [hdigits, nonCanonical_cons_iff, hlen, show 1 ≤ e.len.toNat - 1 ↔ 2 ≤ e.len.toNat by omega]

theorem decodeVariable_of_len_out (r : Rom) {e : Engine} (h : ¬ (1 ≤ e.len.toNat ∧ e.len.toNat ≤ 11)) :
    decodeVariable r e = .error .invalidLength :=
  if_pos (Bool.eq_false_iff.2 fun hok => h ((variableLengthOk_iff _).1 hok))

theorem decodeVariable_of_lookupAll_none {r : Rom} {e : Engine} (h : 1 ≤ e.len.toNat ∧ e.len.toNat ≤ 11)
    (hlookup : r.lookupAll e.textOperand = none) : decodeVariable r e = .error .invalidCharacter := by
  simp [decodeVariable, Engine.lengthOperand, (variableLengthOk_iff _).2 h, hlookup]

theorem decodeVariable_of_lookupAll_some {r : Rom} {e : Engine} {ds : List Digit}
    (h : 1 ≤ e.len.toNat ∧ e.len.toNat ≤ 11) (hlookup : r.lookupAll e.textOperand = some ds) :
    decodeVariable r e = if nonCanonical ds = true then .error .invalidFormat else accumulateOutcome ds := by
  simp [decodeVariable, Engine.lengthOperand, (variableLengthOk_iff _).2 h, hlookup]

/-- On members a leading 0 before other digits is the wrong form, whatever the value (R163). -/
theorem decodeVariable_of_padded {r : Rom} {e : Engine} (h2 : 2 ≤ e.len.toNat) (h11 : e.len.toNat ≤ 11)
    (hmembers : e.allMembers r) (hfirst : e.digitAt r 0 = 0) : decodeVariable r e = .error .invalidFormat := by
  rw [decodeVariable_of_lookupAll_some ⟨by omega, h11⟩ (lookupAll_of_allMembers (by omega) hmembers),
    if_pos ((nonCanonical_digits_iff r (by omega)).2 ⟨h2, hfirst⟩)]

/-- On members in canonical form the outcome is decided by the value of the digits (R161). -/
theorem decodeVariable_of_canonical {r : Rom} {e : Engine} (h : 1 ≤ e.len.toNat ∧ e.len.toNat ≤ 11)
    (hmembers : e.allMembers r) (hfirst : 2 ≤ e.len.toNat → e.digitAt r 0 ≠ 0) :
    decodeVariable r e =
      if e.textValue r < 2 ^ 64 then .ok (BitVec.ofNat 64 (e.textValue r)) else .error .outOfRange := by
  have hform : ¬ nonCanonical (e.digits r) = true := fun hpadded =>
    have ⟨h2, hzero⟩ := (nonCanonical_digits_iff r h.1).1 hpadded
    hfirst h2 hzero
  rw [decodeVariable_of_lookupAll_some h (lookupAll_of_allMembers (by omega) hmembers), if_neg hform,
    accumulateOutcome_eq, digitsValue_digits]

/-- Ten digits are worth less than `64^10 = 2^60` (R128). -/
theorem textValue_lt_of_len_le_ten (r : Rom) {e : Engine} (h : e.len.toNat ≤ 10) : e.textValue r < 2 ^ 64 := by
  have hlt := digitsValue_lt (e.digits r)
  have hpow : 64 ^ (e.digits r).length ≤ 64 ^ 10 := Nat.pow_le_pow_right (by decide) (by simpa [Engine.digits] using h)
  rw [digitsValue_digits] at hlt
  omega

theorem textValue_of_len_one (r : Rom) {e : Engine} (h : e.len.toNat = 1) : e.textValue r = (e.digitAt r 0).toNat := by
  simp [Engine.textValue, weight, h]

theorem digit_ne_zero_iff (d : Digit) : d ≠ 0 ↔ 1 ≤ d.toNat := by
  rw [ne_eq, ← BitVec.toNat_inj, Nat.one_le_iff_ne_zero]
  rfl

/-- Settles O15: one clause for each way the checks of `DECV` can end, in their order. -/
theorem decvOutcome : Obligations.DecvOutcome := by
  intro s
  have herror {k : ErrorKind} (h : decodeVariable s.rom s.eng = .error k) : endsWithError .decv s (statusFailure k) :=
    endsWithError_of_outcome (h ▸ exec_decv_eq s)
  have hsuccess (h : 1 ≤ s.eng.len.toNat ∧ s.eng.len.toNat ≤ 11) (hmembers : s.eng.allMembers s.rom)
      (hfirst : 2 ≤ s.eng.len.toNat → 1 ≤ (s.eng.digitAt s.rom 0).toNat) (hfits : s.eng.textValue s.rom < 2 ^ 64) :
      succeedsWith .decv s (BitVec.ofNat 64 (s.eng.textValue s.rom)) :=
    (succeedsWith_iff_of_outcome (exec_decv_eq s) _).2
      ((decodeVariable_of_canonical h hmembers fun h2 => (digit_ne_zero_iff _).2 (hfirst h2)).trans (if_pos hfits))
  refine ⟨?length, ?character, ?format, ?range, ?oneDigit, ?upToTen, ?eleven⟩
  case length => exact fun hlen => herror (decodeVariable_of_len_out _ (by omega))
  case character =>
    intro h1 h11 hnot
    exact herror (decodeVariable_of_lookupAll_none ⟨h1, h11⟩ (lookupAll_of_not_allMembers (by omega) hnot))
  case format => exact fun h2 h11 hmembers hfirst => herror (decodeVariable_of_padded h2 h11 hmembers hfirst)
  case range =>
    intro hlen hmembers hfirst
    have hvalue := textValue_lt_iff s.rom s.eng hlen
    have hcanonical := decodeVariable_of_canonical (by omega) hmembers fun _ => (digit_ne_zero_iff _).2 (by omega)
    exact herror (hcanonical.trans (if_neg (by omega)))
  case oneDigit =>
    intro hlen hmembers
    rw [← BitVec.ofNat_toNat, ← textValue_of_len_one s.rom hlen]
    exact hsuccess (by omega) hmembers (by omega) (textValue_lt_of_len_le_ten s.rom (by omega))
  case upToTen =>
    intro h2 h10 hmembers hfirst
    have hfits := textValue_lt_of_len_le_ten s.rom h10
    exact ⟨hfits, hsuccess (by omega) hmembers (fun _ => hfirst) hfits⟩
  case eleven =>
    intro hlen hmembers hfirst h15
    have hfits := (textValue_lt_iff s.rom s.eng hlen).2 h15
    exact ⟨hfits, hsuccess (by omega) hmembers (fun _ => hfirst) hfits⟩

/-! ## One representation per value -/

/-- A digit string is canonical exactly when it is as long as its value needs: a leading 0 can be left out, another
first digit cannot (R163, R164). -/
theorem nonCanonical_eq_false_iff {ds : List Digit} {v : Value} (hne : 1 ≤ ds.length) (hvalue : digitsValue ds = v.toNat) :
    nonCanonical ds = false ↔ ds.length = varLen v := by
  obtain ⟨hpos, -, -, -⟩ := varLen_spec v
  have hle : varLen v ≤ ds.length := (varLen_le_iff_lt_pow v hne).2 (hvalue ▸ digitsValue_lt ds)
  cases ds with
  | nil => cases hne
  | cons d ds =>
    have hrest := digitsValue_lt ds
    rw [List.length_cons] at hle
    rw [digitsValue_cons] at hvalue
    rw [← Bool.not_eq_true, nonCanonical_cons_iff, List.length_cons]
    by_cases hmore : 1 ≤ ds.length
    · have hshorter := varLen_le_iff_lt_pow v hmore
      by_cases hd : d = 0
      · have hdrop : d.toNat * 64 ^ ds.length = 0 := by simp [hd]
        have hfits : varLen v ≤ ds.length := hshorter.2 (by omega)
        exact iff_of_false (fun hcan => hcan ⟨hmore, hd⟩) (by omega)
      · have hlead : 64 ^ ds.length ≤ d.toNat * 64 ^ ds.length := Nat.le_mul_of_pos_left _ ((digit_ne_zero_iff d).1 hd)
        have hover : ¬ varLen v ≤ ds.length := fun hfits => (hshorter.1 hfits).not_ge (by omega)
        exact iff_of_true (fun hpadded => hd hpadded.2) (by omega)
    · exact iff_of_true (fun hpadded => hmore hpadded.1) (by omega)

/-- `DECV` succeeds exactly on as many members as the value needs, whose digits are worth the value (R161, R164). -/
theorem decv_succeedsWith_iff (s : State) (v : Value) :
    succeedsWith .decv s v ↔
      s.eng.len.toNat = varLen v ∧ ∃ ds, s.rom.lookupAll s.eng.textOperand = some ds ∧ digitsValue ds = v.toNat := by
  have hlength {ds : List Digit} (h11 : s.eng.len.toNat ≤ 11) (h : s.rom.lookupAll s.eng.textOperand = some ds) :
      ds.length = s.eng.len.toNat := (lookupAll_length h).trans (textOperand_length _ (by omega))
  rw [succeedsWith_iff_of_outcome (exec_decv_eq s)]
  constructor
  · intro hok
    by_cases hlen : 1 ≤ s.eng.len.toNat ∧ s.eng.len.toNat ≤ 11
    · cases hlookup : s.rom.lookupAll s.eng.textOperand with
      | none =>
        rw [decodeVariable_of_lookupAll_none hlen hlookup] at hok
        cases hok
      | some ds =>
        have hds := hlength hlen.2 hlookup
        rw [decodeVariable_of_lookupAll_some hlen hlookup] at hok
        split at hok
        · cases hok
        · next hform =>
          have hvalue := (accumulateOutcome_eq_ok_iff ds v).1 hok
          have hleast := (nonCanonical_eq_false_iff (by omega) hvalue).1 (Bool.eq_false_iff.2 hform)
          exact ⟨hds.symm.trans hleast, ds, rfl, hvalue⟩
    · rw [decodeVariable_of_len_out _ hlen] at hok
      cases hok
  · rintro ⟨hlen, ds, hlookup, hvalue⟩
    obtain ⟨hpos, hle, -, -⟩ := varLen_spec v
    have hds := hlength (by omega) hlookup
    have hform := (nonCanonical_eq_false_iff (by omega) hvalue).2 (hds.trans hlen)
    rw [decodeVariable_of_lookupAll_some (by omega) hlookup, hform, if_neg Bool.false_ne_true, accumulateOutcome_eq_ok_iff]
    exact hvalue

/-- Settles O12: `ENCV` leaves `VarLen` digits, `DECV` takes no other length, and `DECF` takes 11 characters. -/
theorem encvIsMinimal : Obligations.EncvIsMinimal := by
  intro s _
  obtain ⟨e, hexec, hlen, -⟩ := exec_encv_string s
  obtain ⟨hpos, hle, hlt, hmin⟩ := varLen_spec s.eng.val
  refine ⟨s.setEng e, hexec, ?zero, ?positive, ?shortest⟩
  case zero =>
    intro hzero
    have hone : varLen s.eng.val ≤ 1 := (varLen_le_iff_lt_pow _ (Nat.le_refl 1)).2 (by rw [hzero]; decide)
    exact BitVec.eq_of_toNat_eq (hlen.trans (Nat.le_antisymm hone hpos))
  case positive =>
    intro hne
    rw [setEng_eng, hlen]
    refine ⟨hlt, fun m hm => ?_⟩
    cases m with
    | zero =>
      rw [Nat.pow_zero]
      exact Nat.pos_of_ne_zero fun hzero => hne (BitVec.eq_of_toNat_eq hzero)
    | succ m => exact hmin (m + 1) (by omega) hm
  case shortest =>
    rintro u i - (rfl | rfl) hsucceeds
    · obtain ⟨heleven, -⟩ := (decf_succeedsWith_iff u _).1 hsucceeds
      rw [setEng_eng, hlen, heleven]
      exact hle
    · obtain ⟨hleast, -⟩ := (decv_succeedsWith_iff u _).1 hsucceeds
      rw [setEng_eng, hlen, hleast]

/-! ## The round trips -/

/-- Settles O23: the characters `ENCV` left look up to `VarLen` digits that are worth the value. -/
theorem variableCodecRoundTrip : Obligations.VariableCodecRoundTrip := by
  intro s hwf
  obtain ⟨e, hexec, hlen, htext⟩ := exec_encv_string s
  obtain ⟨-, hle, hlt, -⟩ := varLen_spec s.eng.val
  refine ⟨s.setEng e, hexec, ?_⟩
  rintro u ⟨hrom, hulen, hutxt⟩
  have hstring : u.eng.textOperand = e.textOperand := textOperand_congr hulen hutxt (show e.len.toNat ≤ 12 by omega)
  have hlookup : u.rom.lookupAll u.eng.textOperand = some (extractDigits (varLen s.eng.val) s.eng.val).reverse := by
    rw [hstring, htext, hrom]
    exact lookupAll_spell hwf _
  exact (decv_succeedsWith_iff u _).2
    ⟨(congrArg BitVec.toNat hulen).trans hlen, _, hlookup, digitsValue_reverse_extractDigits _ hlt⟩

/-- Settles O24: `DECV` takes strings of `VarLen` characters only, and `ENCV` extracts as many digits, those of the string. -/
theorem variableCodecReencodes : Obligations.VariableCodecReencodes := by
  rintro s v hwf hsucceeds t hrom rfl
  obtain ⟨hlen, ds, hlookup, hvalue⟩ := (decv_succeedsWith_iff s _).1 hsucceeds
  obtain ⟨e, hexec, helen, hetext⟩ := exec_encv_string t
  obtain ⟨-, hle, -, -⟩ := varLen_spec t.eng.val
  have hds : ds.length = varLen t.eng.val := by
    rw [lookupAll_length hlookup, textOperand_length _ (by omega), hlen]
  have hstring : e.textOperand = s.eng.textOperand := by
    rw [hetext, ← hds, extractDigits_of_digitsValue hvalue, hrom, spell_reverse_of_lookupAll hwf hlookup]
  have hsame : e.len.toNat = s.eng.len.toNat := helen.trans hlen.symm
  exact ⟨t.setEng e, hexec, BitVec.eq_of_toNat_eq hsame, txtAt_eq_of_textOperand_eq (by omega) hsame hstring⟩

end Sys2Proof.Machine

end

section
/-! PROOFS. The laws of the decoders (44_sequencer_and_laws.md): the error reported is the first violated condition, and what follows from that for the
rejections, the agreement of the two decoders, the cross round trips and the properties of the source. -/

namespace Sys2Proof.Machine

/-! ## The first violated condition -/

/-- What the check of each kind rejects (R180), the four conditions independent of each other. The leading zero is read as a digit, so that the ROM need
not be one that can be built. -/
def Violates (m : Instr) (s : State) : ErrorKind → Prop
  | .invalidLength => ¬ lengthCheckPasses m s.eng.len.toNat
  | .invalidCharacter => ¬ s.eng.allMembers s.rom
  | .invalidFormat => m = .decv ∧ 2 ≤ s.eng.len.toNat ∧ s.eng.digitAt s.rom 0 = 0
  | .outOfRange => 2 ^ 64 ≤ s.eng.textValue s.rom

/-- The condition of kind `k` is violated and none before it; the checks are made in the order of the codes (R180, R203). -/
def FirstViolation (m : Instr) (s : State) (k : ErrorKind) : Prop :=
  Violates m s k ∧ ∀ j : ErrorKind, j.code.toNat < k.code.toNat → ¬ Violates m s j

theorem exists_firstViolation {m : Instr} {s : State} {k : ErrorKind} (h : Violates m s k) : ∃ j, FirstViolation m s j := by
  obtain ⟨j, hj, hleast⟩ := (measure fun j : ErrorKind => j.code.toNat).wf.has_min {j | Violates m s j} ⟨k, h⟩
  exact ⟨j, hj, fun i hlt hi => hleast i hi hlt⟩

theorem decodeFixed_of_firstViolation {s : State} {k : ErrorKind} (h : FirstViolation .decf s k) :
    decodeFixed s.rom s.eng = .error k := by
  obtain ⟨hk, hbefore⟩ := h
  have hlen (hlt : 1 < k.code.toNat) : s.eng.len.toNat = 11 := not_not.1 (hbefore .invalidLength hlt)
  have hmembers (hlt : 2 < k.code.toNat) : s.eng.allMembers s.rom := not_not.1 (hbefore .invalidCharacter hlt)
  cases k with
  | invalidLength => exact decodeFixed_of_len_ne _ hk
  | invalidCharacter =>
    have h11 := hlen (by decide)
    exact decodeFixed_of_lookupAll_none h11 (lookupAll_of_not_allMembers (by omega) hk)
  | invalidFormat =>
    obtain ⟨hm, -⟩ := hk
    cases hm
  | outOfRange => exact (decodeFixed_of_allMembers (hlen (by decide)) (hmembers (by decide))).trans (if_neg (not_lt.2 hk))

theorem decodeFixed_of_no_violation {s : State} (h : ∀ k, ¬ Violates .decf s k) :
    decodeFixed s.rom s.eng = .ok (BitVec.ofNat 64 (s.eng.textValue s.rom)) :=
  (decodeFixed_of_allMembers (not_not.1 (h .invalidLength)) (not_not.1 (h .invalidCharacter))).trans
    (if_pos (not_le.1 (h .outOfRange)))

theorem decodeVariable_of_firstViolation {s : State} {k : ErrorKind} (h : FirstViolation .decv s k) :
    decodeVariable s.rom s.eng = .error k := by
  obtain ⟨hk, hbefore⟩ := h
  have hlen (hlt : 1 < k.code.toNat) : 1 ≤ s.eng.len.toNat ∧ s.eng.len.toNat ≤ 11 := not_not.1 (hbefore .invalidLength hlt)
  have hmembers (hlt : 2 < k.code.toNat) : s.eng.allMembers s.rom := not_not.1 (hbefore .invalidCharacter hlt)
  cases k with
  | invalidLength => exact decodeVariable_of_len_out _ hk
  | invalidCharacter =>
    have hrange := hlen (by decide)
    exact decodeVariable_of_lookupAll_none hrange (lookupAll_of_not_allMembers (by omega) hk)
  | invalidFormat =>
    obtain ⟨-, h2, hzero⟩ := hk
    have hrange := hlen (by decide)
    exact decodeVariable_of_padded h2 hrange.2 (hmembers (by decide)) hzero
  | outOfRange =>
    have hcanonical := decodeVariable_of_canonical (hlen (by decide)) (hmembers (by decide))
      fun h2 hzero => hbefore .invalidFormat (by decide) ⟨rfl, h2, hzero⟩
    exact hcanonical.trans (if_neg (not_lt.2 hk))

theorem decodeVariable_of_no_violation {s : State} (h : ∀ k, ¬ Violates .decv s k) :
    decodeVariable s.rom s.eng = .ok (BitVec.ofNat 64 (s.eng.textValue s.rom)) :=
  (decodeVariable_of_canonical (not_not.1 (h .invalidLength)) (not_not.1 (h .invalidCharacter))
    fun h2 hzero => h .invalidFormat ⟨rfl, h2, hzero⟩).trans (if_pos (not_le.1 (h .outOfRange)))

/-- The outcome of a decoder: an error exactly of the kind of the first violation, else the value of the text (R193, R203). -/
theorem exec_decoder_outcome (s : State) {m : Instr} (hm : m = .decf ∨ m = .decv) :
    ∃ o, exec m s = .next (s.setEng (s.eng.finishDecode s.inst o)) ∧ (∀ k, o = .error k ↔ FirstViolation m s k) ∧
      ((∀ k, ¬ Violates m s k) → o = .ok (BitVec.ofNat 64 (s.eng.textValue s.rom))) := by
  have hiff {o : Except ErrorKind Value} (herror : ∀ k, FirstViolation m s k → o = .error k)
      (hok : (∀ k, ¬ Violates m s k) → o = .ok (BitVec.ofNat 64 (s.eng.textValue s.rom))) (k : ErrorKind) :
      o = .error k ↔ FirstViolation m s k := by
    refine ⟨fun hk => ?_, herror k⟩
    by_cases hnone : ∀ k, ¬ Violates m s k
    · cases hk.symm.trans (hok hnone)
    · obtain ⟨i, hi⟩ := not_forall_not.1 hnone
      obtain ⟨j, hj⟩ := exists_firstViolation hi
      cases hk.symm.trans (herror j hj)
      exact hj
  obtain rfl | rfl := hm
  · exact ⟨_, exec_decf_eq s, hiff (fun _ => decodeFixed_of_firstViolation) decodeFixed_of_no_violation,
      decodeFixed_of_no_violation⟩
  · exact ⟨_, exec_decv_eq s, hiff (fun _ => decodeVariable_of_firstViolation) decodeVariable_of_no_violation,
      decodeVariable_of_no_violation⟩

/-! ## What a decoder ends with -/

theorem statusFailure_injective : Function.Injective statusFailure := by
  intro j k
  cases j <;> cases k <;> decide

theorem finishDecode_status_eq_failure_iff (e : Engine) (n : Nat) (o : Except ErrorKind Value) (k : ErrorKind) :
    (e.finishDecode n o).status = statusFailure k ↔ o = .error k := by
  cases o with
  | ok v => exact iff_of_false (statusFailure_ne_success k).symm (by simp)
  | error j => simp [statusFailure_injective.eq_iff]

/-- Every decoder completes, and `STATUS` then holds the code of the first violation (R203). -/
theorem exec_decoder_status (s : State) {m : Instr} (hm : m = .decf ∨ m = .decv) :
    ∃ t, exec m s = .next t ∧ ∀ k, t.eng.status = statusFailure k ↔ FirstViolation m s k := by
  obtain ⟨o, hexec, herror, -⟩ := exec_decoder_outcome s hm
  exact ⟨_, hexec, fun k => (finishDecode_status_eq_failure_iff _ _ o k).trans (herror k)⟩

theorem endsWithError_iff (s : State) {m : Instr} (hm : m = .decf ∨ m = .decv) (k : ErrorKind) :
    endsWithError m s (statusFailure k) ↔ FirstViolation m s k := by
  obtain ⟨o, hexec, herror, -⟩ := exec_decoder_outcome s hm
  rw [← herror k]
  constructor
  · rintro ⟨u, d, hends⟩
    have heng : s.eng.finishDecode s.inst o = { s.eng with status := statusFailure k, val := u, draws := d } :=
      congrArg State.eng (Host.Outcome.next.inj (hexec.symm.trans hends))
    exact (finishDecode_status_eq_failure_iff _ _ o k).1 (congrArg Engine.status heng)
  · rintro rfl
    exact endsWithError_of_outcome hexec

/-- A decoder succeeds exactly when no condition is violated, with the value of the text (R193). -/
theorem succeedsWith_iff (s : State) {m : Instr} (hm : m = .decf ∨ m = .decv) (v : Value) :
    succeedsWith m s v ↔ (∀ k, ¬ Violates m s k) ∧ v = BitVec.ofNat 64 (s.eng.textValue s.rom) := by
  obtain ⟨o, hexec, herror, hok⟩ := exec_decoder_outcome s hm
  rw [succeedsWith_iff_of_outcome hexec]
  constructor
  · rintro rfl
    have hnone : ∀ k, ¬ Violates m s k := fun k hk => by
      obtain ⟨j, hj⟩ := exists_firstViolation hk
      cases (herror j).2 hj
    exact ⟨hnone, Except.ok.inj (hok hnone)⟩
  · rintro ⟨hnone, rfl⟩
    exact hok hnone

/-! ## The four kinds, each by itself -/

theorem firstViolation_invalidLength_iff (m : Instr) (s : State) :
    FirstViolation m s .invalidLength ↔ ¬ lengthCheckPasses m s.eng.len.toNat := by
  refine ⟨And.left, fun hlen => ⟨hlen, fun j hj => ?_⟩⟩
  cases j <;> exact absurd hj (by decide)

theorem firstViolation_invalidCharacter_iff (m : Instr) (s : State) :
    FirstViolation m s .invalidCharacter ↔ lengthCheckPasses m s.eng.len.toNat ∧ ¬ s.eng.allMembers s.rom := by
  constructor
  · rintro ⟨hnot, hbefore⟩
    exact ⟨not_not.1 (hbefore .invalidLength (by decide)), hnot⟩
  · rintro ⟨hlen, hnot⟩
    refine ⟨hnot, fun j hj => ?_⟩
    cases j with
    | invalidLength => exact not_not.2 hlen
    | invalidCharacter | invalidFormat | outOfRange => exact absurd hj (by decide)

theorem firstViolation_invalidFormat_iff (m : Instr) (s : State) :
    FirstViolation m s .invalidFormat ↔
      m = .decv ∧ 2 ≤ s.eng.len.toNat ∧ s.eng.len.toNat ≤ 11 ∧ s.eng.allMembers s.rom ∧ s.eng.digitAt s.rom 0 = 0 := by
  constructor
  · rintro ⟨⟨rfl, h2, hzero⟩, hbefore⟩
    have hlen : 1 ≤ s.eng.len.toNat ∧ s.eng.len.toNat ≤ 11 := not_not.1 (hbefore .invalidLength (by decide))
    exact ⟨rfl, h2, hlen.2, not_not.1 (hbefore .invalidCharacter (by decide)), hzero⟩
  · rintro ⟨rfl, h2, h11, hmembers, hzero⟩
    refine ⟨⟨rfl, h2, hzero⟩, fun j hj => ?_⟩
    cases j with
    | invalidLength => exact not_not.2 ⟨by omega, h11⟩
    | invalidCharacter => exact not_not.2 hmembers
    | invalidFormat | outOfRange => exact absurd hj (by decide)

theorem textValue_ge_iff (r : Rom) {e : Engine} (h : e.len.toNat = 11) :
    2 ^ 64 ≤ e.textValue r ↔ 16 ≤ (e.digitAt r 0).toNat := by
  have hlt := textValue_lt_iff r e h
  omega

/-- A length a decoder takes is at most 11, and 11 is one (R180). -/
theorem lengthCheck_bounds {m : Instr} (hm : m = .decf ∨ m = .decv) :
    (∀ n, lengthCheckPasses m n → n ≤ 11) ∧ lengthCheckPasses m 11 := by
  obtain rfl | rfl := hm
  · exact ⟨fun _ => Nat.le_of_eq, rfl⟩
  · exact ⟨fun _ => And.right, by decide⟩

/-- A value that does not fit is one of eleven digits whose first is no zero, so the canonical form is not violated (R128, R191). -/
theorem firstViolation_outOfRange_iff {m : Instr} (hm : m = .decf ∨ m = .decv) (s : State) :
    FirstViolation m s .outOfRange ↔
      s.eng.len.toNat = 11 ∧ s.eng.allMembers s.rom ∧ 16 ≤ (s.eng.digitAt s.rom 0).toNat := by
  obtain ⟨hmax, heleven⟩ := lengthCheck_bounds hm
  constructor
  · rintro ⟨hvalue, hbefore⟩
    have hle : s.eng.len.toNat ≤ 11 := hmax _ (not_not.1 (hbefore .invalidLength (by decide)))
    have hlen : s.eng.len.toNat = 11 := by
      by_contra hne
      exact (textValue_lt_of_len_le_ten s.rom (by omega)).not_ge hvalue
    exact ⟨hlen, not_not.1 (hbefore .invalidCharacter (by decide)), (textValue_ge_iff s.rom hlen).1 hvalue⟩
  · rintro ⟨hlen, hmembers, hfirst⟩
    refine ⟨(textValue_ge_iff s.rom hlen).2 hfirst, fun j hj => ?_⟩
    cases j with
    | invalidLength => exact not_not.2 (hlen ▸ heleven)
    | invalidCharacter => exact not_not.2 hmembers
    | invalidFormat =>
      rintro ⟨-, -, hzero⟩
      exact (digit_ne_zero_iff _).2 (by omega) hzero
    | outOfRange => exact absurd hj (by decide)

/-! ## Members and digits of a text -/

theorem not_allMembers_iff (r : Rom) (e : Engine) :
    ¬ e.allMembers r ↔ ∃ i, i < e.len.toNat ∧ r.digitOf (e.txtAt i) = none := by
  simp [Engine.allMembers, Rom.isMember]

theorem digitOf_txtAt_of_isMember {r : Rom} {e : Engine} {i : Nat} (h : r.isMember (e.txtAt i) = true) :
    r.digitOf (e.txtAt i) = some (e.digitAt r i) := by
  obtain ⟨d, hd⟩ := Option.isSome_iff_exists.1 h
  rw [Engine.digitAt, hd, Option.getD_some]

theorem digitAt_of_txtAt_eq {r : Rom} (hwf : r.wf) {e : Engine} {i : Nat} {d : Digit} (h : e.txtAt i = r.charOf d) :
    e.digitAt r i = d := by
  rw [Engine.digitAt, h, digitOf_charOf hwf, Option.getD_some]

/-- A member has the digit 0 exactly when it is the zero-symbol (R106). -/
theorem digitAt_eq_zero_iff {r : Rom} (hwf : r.wf) {e : Engine} {i : Nat} (h : r.isMember (e.txtAt i) = true) :
    e.digitAt r i = 0 ↔ e.txtAt i = r.zeroSymbol := by
  refine ⟨fun hzero => ?_, digitAt_of_txtAt_eq hwf⟩
  rw [← (digitOf_eq_some_iff hwf _ _).1 (digitOf_txtAt_of_isMember h), hzero]
  rfl

/-! ## When a decoder ends with each kind -/

/-- Settles O16: the length check is the first, so its violation is always the one reported. -/
theorem lengthRejection : Obligations.LengthRejection := by
  intro s
  obtain ⟨t, hdecf, htstatus⟩ := exec_decoder_status (m := .decf) s (.inl rfl)
  obtain ⟨u, hdecv, hustatus⟩ := exec_decoder_status (m := .decv) s (.inr rfl)
  have heleven : s.eng.len = 11 ↔ s.eng.len.toNat = 11 := BitVec.toNat_inj.symm
  have hzero : s.eng.len = 0 ↔ s.eng.len.toNat = 0 := BitVec.toNat_inj.symm
  constructor
  · refine ⟨t, hdecf, ((htstatus .invalidLength).trans (firstViolation_invalidLength_iff _ s)).trans ?_⟩
    exact not_congr heleven.symm
  · refine ⟨u, hdecv, ((hustatus .invalidLength).trans (firstViolation_invalidLength_iff _ s)).trans ?_⟩
    rw [hzero]
    show ¬ (1 ≤ s.eng.len.toNat ∧ s.eng.len.toNat ≤ 11) ↔ _
    omega

/-- Settles O17: once the length passes, a non-member is the first violation. -/
theorem characterRejection : Obligations.CharacterRejection := by
  intro s
  have hends {m : Instr} (hm : m = .decf ∨ m = .decv) (hlen : lengthCheckPasses m s.eng.len.toNat) :
      endsIn m s fun t => t.eng.status = 0x00000004 ↔
        ∃ i, i < s.eng.len.toNat ∧ s.rom.digitOf (s.eng.txtAt i) = none := by
    obtain ⟨t, hexec, hstatus⟩ := exec_decoder_status s hm
    refine ⟨t, hexec, (hstatus .invalidCharacter).trans ?_⟩
    rw [firstViolation_invalidCharacter_iff, and_iff_right hlen, not_allMembers_iff]
  constructor
  · intro hlen
    have hdecf := hends (.inl rfl) hlen
    rwa [hlen] at hdecf
  · exact fun h1 h11 => hends (.inr rfl) ⟨h1, h11⟩

/-- Settles O18: the canonical form is checked after the length and the characters, and by `DECV` only. -/
theorem canonicalRejection : Obligations.CanonicalRejection := by
  intro s hwf
  constructor
  · obtain ⟨t, hexec, hstatus⟩ := exec_decoder_status (m := .decv) s (.inr rfl)
    refine ⟨t, hexec, (hstatus .invalidFormat).trans ((firstViolation_invalidFormat_iff _ s).trans ?_)⟩
    constructor
    · rintro ⟨-, h2, h11, hmembers, hzero⟩
      exact ⟨h2, h11, hmembers, (digitAt_eq_zero_iff hwf (hmembers 0 (by omega))).1 hzero⟩
    · rintro ⟨h2, h11, hmembers, hsymbol⟩
      exact ⟨rfl, h2, h11, hmembers, digitAt_of_txtAt_eq hwf hsymbol⟩
  · obtain ⟨t, hexec, hstatus⟩ := exec_decoder_status (m := .decf) s (.inl rfl)
    refine ⟨t, hexec, fun hformat => ?_⟩
    obtain ⟨⟨hm, -⟩, -⟩ := (hstatus .invalidFormat).1 hformat
    cases hm

/-- Settles O19: a value that does not fit is the last violation, one of eleven digits from 16 on. -/
theorem overflowRejection : Obligations.OverflowRejection := by
  intro s hwf m hm
  obtain ⟨t, hexec, hstatus⟩ := exec_decoder_status s hm
  have hrange : t.eng.status = 0x00000008 ↔ _ := (hstatus .outOfRange).trans (firstViolation_outOfRange_iff hm s)
  have heleven : s.eng.len = 11 ↔ s.eng.len.toNat = 11 := BitVec.toNat_inj.symm
  refine ⟨t, hexec, ?_, fun d hd hlen htext => ?_⟩
  · rw [hrange, heleven]
    refine and_congr_right fun hlen => and_congr_right fun hmembers => ?_
    rw [digitOf_txtAt_of_isMember (hmembers 0 (by omega))]
    simp
  · have hlen' := heleven.1 hlen
    refine hrange.2 ⟨hlen', fun i hi => (isMember_iff hwf _).2 ⟨d, (htext i (by omega)).symm⟩, ?_⟩
    rw [digitAt_of_txtAt_eq hwf (htext 0 (by omega))]
    obtain rfl | rfl := hd <;> decide

/-! ## The properties of the source -/

/-- The cause of a rejection is a violated condition (R188). -/
theorem violates_of_rejectionCause {m : Instr} {s : State} (hwf : s.rom.wf) {k : ErrorKind} (h : rejectionCause m s k) :
    Violates m s k := by
  cases k with
  | invalidLength => exact h
  | invalidCharacter => exact (not_allMembers_iff _ _).2 h
  | invalidFormat =>
    obtain ⟨hm, h2, hsymbol⟩ := h
    exact ⟨hm, h2, digitAt_of_txtAt_eq hwf hsymbol⟩
  | outOfRange => exact h

/-- Under the restriction of its kind, the cause of a rejection is the first violation (R188). -/
theorem firstViolation_iff_rejectionCause {m : Instr} {s : State} {k : ErrorKind} (hwf : s.rom.wf)
    (hm : m = .decf ∨ m = .decv) (h : rejectionRestriction m s k) : FirstViolation m s k ↔ rejectionCause m s k := by
  cases k with
  | invalidLength => exact firstViolation_invalidLength_iff m s
  | invalidCharacter =>
    rw [firstViolation_invalidCharacter_iff, not_allMembers_iff]
    exact and_iff_right h
  | invalidFormat =>
    obtain ⟨h2, h11, hmembers⟩ := h
    rw [firstViolation_invalidFormat_iff, digitAt_eq_zero_iff hwf (hmembers 0 (by omega))]
    exact ⟨fun ⟨hdecv, _, _, _, hsymbol⟩ => ⟨hdecv, h2, hsymbol⟩,
      fun ⟨hdecv, _, hsymbol⟩ => ⟨hdecv, h2, h11, hmembers, hsymbol⟩⟩
  | outOfRange =>
    obtain ⟨hlen, hmembers⟩ := h
    rw [firstViolation_outOfRange_iff hm, and_iff_right hlen, and_iff_right hmembers]
    exact (textValue_ge_iff s.rom hlen).symm

theorem statusOk_statusFailure (k : ErrorKind) : statusOk (statusFailure k) = 0 := by cases k <;> decide

/-- Settles O47: the cause is a violated condition, and the first one where the restriction is met. -/
theorem rejectionPropertiesUnderRestrictions : Obligations.RejectionPropertiesUnderRestrictions := by
  intro s m k hwf hm
  obtain ⟨t, hexec, hstatus⟩ := exec_decoder_status s hm
  refine ⟨t, hexec, fun h => (hstatus k).trans (firstViolation_iff_rejectionCause hwf hm h), fun hcause => ?_⟩
  obtain ⟨j, hj⟩ := exists_firstViolation (violates_of_rejectionCause hwf hcause)
  rw [(hstatus j).2 hj]
  exact statusOk_statusFailure j

/-! ## The two decoders on one text -/

/-- Both decoders violate the same conditions on eleven characters, but for the leading zero that `DECV` rejects (R194). -/
theorem violates_decv_iff_of_len_eleven {s : State} (hlen : s.eng.len.toNat = 11) (k : ErrorKind) :
    Violates .decv s k ↔ Violates .decf s k ∨ k = .invalidFormat ∧ s.eng.digitAt s.rom 0 = 0 := by
  cases k with
  | invalidLength => simp [Violates, hlen]
  | invalidCharacter | outOfRange => simp [Violates]
  | invalidFormat => simp [Violates, hlen]

/-- Settles O25: the conditions agree but for the leading zero, which is checked after the characters and is not the first of digits out of range. -/
theorem decodersAgreeAtLengthEleven : Obligations.DecodersAgreeAtLengthEleven := by
  intro s hwf hlen
  have h11 : s.eng.len.toNat = 11 := congrArg BitVec.toNat hlen
  have hdecf (v : Value) := succeedsWith_iff (m := .decf) s (.inl rfl) v
  have hdecv (v : Value) := succeedsWith_iff (m := .decv) s (.inr rfl) v
  have hmember (h : ∀ k, ¬ Violates .decf s k) : s.rom.isMember (s.eng.txtAt 0) = true :=
    not_not.1 (h .invalidCharacter) 0 (by omega)
  refine ⟨?decvDecf, ?decfDecv, ?padded, ?character, ?range⟩
  case decvDecf =>
    intro v hsucceeds
    obtain ⟨hnone, hv⟩ := (hdecv v).1 hsucceeds
    exact (hdecf v).2 ⟨fun k hk => hnone k ((violates_decv_iff_of_len_eleven h11 k).2 (.inl hk)), hv⟩
  case decfDecv =>
    intro v hsucceeds hsymbol
    obtain ⟨hnone, hv⟩ := (hdecf v).1 hsucceeds
    refine (hdecv v).2 ⟨fun k hk => ?_, hv⟩
    obtain hk | ⟨-, hzero⟩ := (violates_decv_iff_of_len_eleven h11 k).1 hk
    · exact hnone k hk
    · exact hsymbol ((digitAt_eq_zero_iff hwf (hmember hnone)).1 hzero)
  case padded =>
    intro v hsucceeds hsymbol
    obtain ⟨hnone, -⟩ := (hdecf v).1 hsucceeds
    exact (endsWithError_iff s (.inr rfl) .invalidFormat).2 ((firstViolation_invalidFormat_iff _ s).2
      ⟨rfl, by omega, by omega, not_not.1 (hnone .invalidCharacter), digitAt_of_txtAt_eq hwf hsymbol⟩)
  case character =>
    refine (endsWithError_iff s (.inl rfl) .invalidCharacter).trans
      (Iff.trans ?_ (endsWithError_iff s (.inr rfl) .invalidCharacter).symm)
    rw [firstViolation_invalidCharacter_iff, firstViolation_invalidCharacter_iff, h11,
      and_iff_right (lengthCheck_bounds (.inl rfl)).2, and_iff_right (lengthCheck_bounds (.inr rfl)).2]
  case range =>
    refine (endsWithError_iff s (.inl rfl) .outOfRange).trans
      (Iff.trans ?_ (endsWithError_iff s (.inr rfl) .outOfRange).symm)
    rw [firstViolation_outOfRange_iff (.inl rfl), firstViolation_outOfRange_iff (.inr rfl)]

/-- A text that `DECV` takes is one that `DECF` takes when its value needs eleven digits, and else is too short for it (R195). -/
theorem decf_of_decv_succeedsWith {u : State} {v : Value} (h : succeedsWith .decv u v) :
    (2 ^ 60 ≤ v.toNat → succeedsWith .decf u v) ∧ (v.toNat < 2 ^ 60 → endsWithError .decf u 0x00000002) := by
  obtain ⟨hlen, hdigits⟩ := (decv_succeedsWith_iff u v).1 h
  obtain ⟨-, hle, -, -⟩ := varLen_spec v
  have heleven := eleven_le_varLen_iff v
  constructor
  · intro hlarge
    exact (decf_succeedsWith_iff u v).2 ⟨by omega, hdigits⟩
  · intro hsmall
    refine (endsWithError_iff u (.inl rfl) .invalidLength).2 ((firstViolation_invalidLength_iff _ u).2 ?_)
    show ¬ u.eng.len.toNat = 11
    omega

/-- A text that `DECF` takes is one that `DECV` takes when its value needs eleven digits, and else has a leading zero (R195). -/
theorem decv_of_decf_succeedsWith {u : State} {v : Value} (h : succeedsWith .decf u v) :
    (2 ^ 60 ≤ v.toNat → succeedsWith .decv u v) ∧ (v.toNat < 2 ^ 60 → endsWithError .decv u 0x00000006) := by
  obtain ⟨hlen, ds, hlookup, hvalue⟩ := (decf_succeedsWith_iff u v).1 h
  obtain ⟨-, hle, -, -⟩ := varLen_spec v
  have heleven := eleven_le_varLen_iff v
  have hds : ds.length = 11 := by rw [lookupAll_length hlookup, textOperand_length _ (by omega), hlen]
  constructor
  · intro hlarge
    exact (decv_succeedsWith_iff u v).2 ⟨by omega, ds, hlookup, hvalue⟩
  · intro hsmall
    have hpadded : nonCanonical ds = true := by
      rw [← Bool.not_eq_false, nonCanonical_eq_false_iff (by omega) hvalue]
      omega
    have houtcome : decodeVariable u.rom u.eng = .error .invalidFormat :=
      (decodeVariable_of_lookupAll_some (by omega) hlookup).trans (if_pos hpadded)
    exact endsWithError_of_outcome (houtcome ▸ exec_decv_eq u)

/-- Settles O26: each round trip says that one decoder takes the string; the value says what the other makes of it. -/
theorem crossRoundTrips : Obligations.CrossRoundTrips := by
  intro s hwf
  obtain ⟨t, hencv, hdecv⟩ := variableCodecRoundTrip s hwf
  obtain ⟨⟨f, hencf, hdecf⟩, -⟩ := fixedCodecRoundTrip s hwf
  exact ⟨⟨t, hencv, fun u hu => decf_of_decv_succeedsWith (hdecv u hu)⟩,
    ⟨f, hencf, fun u hu => decv_of_decf_succeedsWith (hdecf u hu)⟩⟩

/-! ## The scenarios of the source -/

theorem varLen_zero : varLen 0 = 1 := by decide

/-- `ENCV` of 0 leaves the zero-symbol and the terminator (S2). -/
theorem exec_encv_zero {s : State} (h : s.eng.val = 0) :
    endsIn .encv s fun t => t.eng.len = 1 ∧ t.eng.txtAt 0 = s.rom.zeroSymbol ∧ t.eng.txtAt 1 = s.rom.terminator := by
  refine ⟨_, encvResult s 1 (Nat.le_refl 1) (by rw [h]; decide) (fun m h1 hlt => by omega), rfl, ?_, ?_⟩
  · rw [txtAt_of_lt _ (by omega)]
    simp [h, Rom.zeroSymbol]
  · rw [txtAt_of_lt _ (by omega)]
    simp

/-- `DECV` of the zero-symbol alone gives 0 (S2). -/
theorem decv_zeroSymbol {u : State} (hwf : u.rom.wf) (hlen : u.eng.len = 1) (hsymbol : u.eng.txtAt 0 = u.rom.zeroSymbol) :
    succeedsWith .decv u 0 := by
  have h1 : u.eng.len.toNat = 1 := congrArg BitVec.toNat hlen
  have hmembers : u.eng.allMembers u.rom := fun i hi => by
    obtain rfl : i = 0 := by omega
    exact (isMember_iff hwf _).2 ⟨0, hsymbol.symm⟩
  obtain ⟨-, -, -, -, hone, -, -⟩ := decvOutcome u
  have hsucceeds := hone h1 hmembers
  rwa [digitAt_of_txtAt_eq hwf hsymbol] at hsucceeds

/-- Settles O48: the round trip of the fixed codec, and the first violation of each altered string. -/
theorem scenariosOfTheSource : Obligations.ScenariosOfTheSource := by
  intro s hwf
  constructor
  · obtain ⟨e, hexec, hlen, htext⟩ := exec_encf_string s
    refine ⟨s.setEng e, hexec, fun u => ⟨decf_succeedsWith_of_encf hwf hlen htext, ?otherLength, ?corrupted⟩⟩
    case otherLength =>
      intro _ _ hne
      refine (endsWithError_iff u (.inl rfl) .invalidLength).2 ((firstViolation_invalidLength_iff _ u).2 fun h11 => hne ?_)
      exact BitVec.eq_of_toNat_eq h11
    case corrupted =>
      intro j hj hrom hulen _ hnone
      have h11 : u.eng.len.toNat = 11 := congrArg BitVec.toNat hulen
      refine (endsWithError_iff u (.inl rfl) .invalidCharacter).2 ((firstViolation_invalidCharacter_iff _ u).2 ⟨h11, ?_⟩)
      refine (not_allMembers_iff _ _).2 ⟨j, by omega, ?_⟩
      rw [hrom]
      exact hnone
  · intro hzero
    obtain ⟨t, hexec, hlen, hsymbol, hterminator⟩ := exec_encv_zero hzero
    refine ⟨t, hexec, hlen, hsymbol, hterminator, fun u hrom hulen husymbol => ?_⟩
    rw [← hrom] at hwf husymbol
    exact decv_zeroSymbol hwf hulen husymbol

/-! ## The machine -/

/-- Settles O35: each command ends in a next state that replaces the engine in focus. -/
theorem everyCommandCompletes : Obligations.EveryCommandCompletes := by
  intro m s
  obtain ⟨e, hexec, -⟩ := exec_eq_next_setEng m s
  exact ⟨s.setEng e, hexec⟩

/-- The characters of an encoder are fixed by the ROM and `VAL` (R187). -/
theorem exec_encoder_congr {s u : State} {m : Instr} (hm : m = .encf ∨ m = .encv) (hrom : s.rom = u.rom)
    (hval : s.eng.val = u.eng.val) :
    ∃ cs, cs.length ≤ 11 ∧ exec m s = .next (s.setEng (s.eng.finishEncode s.rom.terminator cs)) ∧
      exec m u = .next (u.setEng (u.eng.finishEncode s.rom.terminator cs)) := by
  obtain rfl | rfl := hm
  · refine ⟨s.rom.spell (extractDigits 11 s.eng.val), ?_, rfl, ?_⟩
    · rw [spell_length, extractDigits_length]
    · rw [hrom, hval]
      rfl
  · obtain ⟨-, hle, -, -⟩ := varLen_spec s.eng.val
    refine ⟨s.rom.spell (extractDigits (varLen s.eng.val) s.eng.val), ?_, exec_encv_eq s, ?_⟩
    · rwa [spell_length, extractDigits_length]
    · rw [hrom, hval]
      exact exec_encv_eq u

/-- The registers an encoder writes are fixed by its characters and the terminator (R25, R26). -/
theorem finishEncode_txtAt (e : Engine) (t : Byte) {cs : List Byte} (h : cs.length ≤ 11) {i : Nat} (hi : i ≤ cs.length) :
    (e.finishEncode t cs).txtAt i = (cs ++ [t])[i]'(by simp; omega) := by
  have hlt : i < (cs ++ [t]).length := by simp; omega
  simp only [txtAt_of_lt _ (show i < 12 by omega), finishEncode_txt]
  rw [putBytes_getElem _ _ _ _ (by omega), if_pos (Nat.zero_le i), Nat.sub_zero, List.getElem?_eq_getElem hlt, Option.getD_some]

/-- Settles O37: an encoder writes characters that the ROM and `VAL` fix, and a decoder has an outcome that the digits of the text fix. -/
theorem resultsDependOnOperandsOnly : Obligations.ResultsDependOnOperandsOnly := by
  intro s u hrom
  constructor
  · intro m hm hval
    obtain ⟨cs, hle, hs, hu⟩ := exec_encoder_congr hm hrom hval
    refine ⟨_, hs, _, hu, rfl, rfl, fun i hi => ?_⟩
    have hlen := finishEncode_len_toNat s.eng s.rom.terminator (show cs.length ≤ 12 by omega)
    have hi' : i ≤ cs.length := hlen ▸ hi
    rw [setEng_eng, setEng_eng, finishEncode_txtAt _ _ hle hi', finishEncode_txtAt _ _ hle hi']
  · intro m hm hlen htxt
    obtain ⟨o, hs, hu⟩ := exec_decoder_congr_digits hm hlen fun i hi => by rw [hrom, htxt i hi]
    exact ⟨_, hs, _, hu, finishDecode_congr s.eng u.eng s.inst u.inst o⟩

end Sys2Proof.Machine

end

section
/-! PROOFS. The sequencers (44_sequencer_and_laws.md): the decoders' phases, the encoders' phases and the one-pass decoders, each against the command. -/

namespace Sys2Proof.Machine

/-! ## The digit registers -/

/-- The digit registers from `dig[0]` on hold the digits `ds`. -/
def Working.HoldsDigits (w : Working) (ds : List Digit) : Prop := ∀ j d, ds[j]? = some d → w.digAt j = d

theorem holdsDigits_nil (w : Working) : w.HoldsDigits [] := fun _ _ h => by simp at h

/-- The next digit stored after those already held; the digit registers are all that matters of the two working states. -/
theorem Working.HoldsDigits.store {w w' : Working} {ds : List Digit} {d : Digit} (h : w.HoldsDigits ds) (hroom : ds.length < 11)
    (hdig : w'.dig = w.dig.setIfInBounds ds.length d) : w'.HoldsDigits (ds ++ [d]) := by
  intro j c hj
  obtain hlt | rfl | hgt := Nat.lt_trichotomy j ds.length
  · rw [List.getElem?_append_left hlt] at hj
    rw [← h j c hj, Working.digAt, Working.digAt, hdig, Vector.getElem?_setIfInBounds_ne (by omega)]
  · rw [List.getElem?_concat_length] at hj
    rw [Working.digAt, hdig, Vector.getElem?_setIfInBounds_self_of_lt hroom, Option.getD_some]
    exact Option.some.inj hj
  · rw [List.getElem?_eq_none (by simp; omega)] at hj
    cases hj

theorem Working.HoldsDigits.digAt_append {w : Working} {ds es : List Digit} {d : Digit} (h : w.HoldsDigits (ds ++ d :: es)) :
    w.digAt ds.length = d :=
  h _ _ (by simp)

/-- A counter of the sequencers, at most 11, does not wrap at its 4 bits (R32). -/
theorem counter_succ {c : BitVec 4} (h : c.toNat ≤ 11) : (c + 1).toNat = c.toNat + 1 := by
  have hone : (1 : BitVec 4).toNat = 1 := rfl
  rw [BitVec.toNat_add, hone]
  omega

/-! ## The end of a decoder's sequencer -/

/-- From this working state the decoder's sequencer has the outcome `o` after `n` steps and from then on. -/
def DecidesWithin (r : Rom) (var : Bool) (e : Engine) (n : Nat) (w : Working) (o : Except ErrorKind Value) : Prop :=
  ∀ k, n ≤ k → ((decoderStep r var e)^[k] w).verdict = some o

section Decoder

variable {r : Rom} {var : Bool} {e : Engine} {w : Working} {o : Except ErrorKind Value}

/-- A final phase is kept (R181). -/
theorem decoderStep_of_verdict (h : w.verdict = some o) : decoderStep r var e w = w := by
  unfold Working.verdict at h
  unfold decoderStep
  split at h
  case h_1 hphase | h_2 k hphase => rw [hphase]
  all_goals cases h

theorem decidesWithin_of_verdict (h : w.verdict = some o) : DecidesWithin r var e 0 w o := fun k _ => by
  rw [Function.iterate_fixed (decoderStep_of_verdict h)]
  exact h

theorem DecidesWithin.of_iterate {n : Nat} (j : Nat) (h : DecidesWithin r var e n ((decoderStep r var e)^[j] w) o) :
    DecidesWithin r var e (j + n) w o := by
  intro k hk
  obtain ⟨i, rfl⟩ := Nat.exists_eq_add_of_le' (show j ≤ k by omega)
  rw [Function.iterate_add_apply]
  exact h i (by omega)

theorem DecidesWithin.of_step {n : Nat} (h : DecidesWithin r var e n (decoderStep r var e w) o) :
    DecidesWithin r var e (n + 1) w o := by
  rw [Nat.add_comm]
  exact .of_iterate 1 h

theorem DecidesWithin.mono {n m : Nat} (h : DecidesWithin r var e n w o) (hle : n ≤ m) : DecidesWithin r var e m w o :=
  fun k hk => h k (hle.trans hk)

/-! ## Phase ValidatingCharacters -/

/-- The sequencer is in phase ValidatingCharacters and has looked up the digits `ds`. -/
structure LookedUp (w : Working) (ds : List Digit) : Prop where
  phase_eq : w.phase = .validatingCharacters
  acc_eq : w.acc = 0
  i_eq : w.i.toNat = ds.length
  holds : w.HoldsDigits ds

/-- Phases Start and ValidatingLength (R180). -/
theorem decoderStep_start (h : w.phase = .start) :
    decoderStep r var e w = { w with phase := .validatingLength, acc := 0, i := 0 } := by simp only [decoderStep, h]

theorem decoderStep_length (h : w.phase = .validatingLength) :
    decoderStep r var e w =
      { w with phase := if lengthAdmissible var e.lengthOperand then .validatingCharacters else .failed .invalidLength } := by
  simp only [decoderStep, h]
  split <;> rfl

/-- A non-member ends the phase. -/
theorem verdict_decoderStep_of_nonMember {ds : List Digit} (h : LookedUp w ds) (hlt : ds.length < e.lengthOperand)
    (hd : r.digitOf (e.txtAt ds.length) = none) : (decoderStep r var e w).verdict = some (.error .invalidCharacter) := by
  simp only [decoderStep, h.phase_eq, h.i_eq, if_pos hlt, hd, Working.verdict]

/-- A member has its digit stored. -/
theorem LookedUp.step {ds : List Digit} {d : Digit} (h : LookedUp w ds) (hlt : ds.length < e.lengthOperand)
    (hle : e.lengthOperand ≤ 11) (hd : r.digitOf (e.txtAt ds.length) = some d) :
    LookedUp (decoderStep r var e w) (ds ++ [d]) := by
  obtain ⟨hphase, hacc, hi, hholds⟩ := h
  have hcounter := counter_succ (c := w.i) (by omega)
  simp only [decoderStep, hphase, hi, if_pos hlt, hd]
  exact ⟨rfl, hacc, hcounter.trans (by rw [hi, List.length_append, List.length_singleton]), hholds.store (by omega) rfl⟩

/-- The phase looks up the rest `cs` of the text: it fails at a non-member, and else has all the digits (R180). -/
theorem LookedUp.rest {cs bs : List Byte} {ds : List Digit} (h : LookedUp w ds) (hle : e.lengthOperand ≤ 11)
    (htext : e.textOperand = bs ++ cs) (hbs : bs.length = ds.length) :
    (r.lookupAll cs = none → DecidesWithin r var e cs.length w (.error .invalidCharacter)) ∧
      ∀ es, r.lookupAll cs = some es → LookedUp ((decoderStep r var e)^[cs.length] w) (ds ++ es) := by
  induction cs generalizing w bs ds with
  | nil => simpa [Rom.lookupAll] using h
  | cons c cs ih =>
    have htextLen : e.textOperand.length = e.lengthOperand := textOperand_length e (hle.trans (by decide))
    have hlt : ds.length < e.lengthOperand := by
      rw [← htextLen, htext, ← hbs]
      simp
    have hchar : e.txtAt ds.length = c := by
      have hget := textOperand_getElem? e ds.length (hle.trans (by decide)) hlt
      rw [htext, ← hbs] at hget
      simpa [hbs, eq_comm] using hget
    rw [List.length_cons, Function.iterate_succ_apply]
    cases hd : r.digitOf c with
    | none =>
      have hfails := verdict_decoderStep_of_nonMember (var := var) h hlt (hchar ▸ hd)
      refine ⟨fun _ => ((decidesWithin_of_verdict hfails).of_step).mono (by omega), fun es hes => ?_⟩
      simp [Rom.lookupAll, hd] at hes
    | some d =>
      obtain ⟨hnone, hsome⟩ := ih (h.step (var := var) hlt hle (hchar ▸ hd)) (bs := bs ++ [c]) (by simpa using htext)
        (by simpa using hbs)
      cases hcs : r.lookupAll cs with
      | none => exact ⟨fun _ => (hnone hcs).of_step, fun es hes => by simp [Rom.lookupAll, hd, hcs] at hes⟩
      | some es =>
        refine ⟨fun hfails => by simp [Rom.lookupAll, hd, hcs] at hfails, fun fs hfs => ?_⟩
        obtain rfl : d :: es = fs := by simpa [Rom.lookupAll, hd, hcs] using hfs
        simpa using hsome es hcs

/-! ## The canonical form and phase Accumulating -/

/-- The sequencer's test of the canonical form reads the digits held (R163, R180). -/
theorem Working.HoldsDigits.nonCanonical_eq {ds : List Digit} (h : w.HoldsDigits ds) :
    (decide (1 < ds.length) && w.digAt 0 == 0) = nonCanonical ds := by
  cases ds with
  | nil => rfl
  | cons d ds =>
    have hfirst : w.digAt 0 = d := h 0 d rfl
    cases ds <;> simp [nonCanonical, hfirst]

/-- The end of the look-ups: the canonical form is tested, and else accumulation begins. -/
theorem LookedUp.decoderStep_eq {ds : List Digit} (h : LookedUp w ds) (hlen : ds.length = e.lengthOperand) :
    decoderStep r var e w =
      if (var && nonCanonical ds) = true then { w with phase := .failed .invalidFormat }
      else { w with phase := .accumulating, i := 0 } := by
  simp only [decoderStep, h.phase_eq, h.i_eq, ← hlen, if_neg (Nat.lt_irrefl _), Bool.and_assoc, h.holds.nonCanonical_eq]

/-- Phase Accumulating goes through the digits `es` that are left (R127, R180). -/
theorem accumulating_decides {ds es : List Digit} (hphase : w.phase = .accumulating) (hi : w.i.toNat = ds.length)
    (hholds : w.HoldsDigits (ds ++ es)) (hlen : (ds ++ es).length = e.lengthOperand) (hle : e.lengthOperand ≤ 11) :
    DecidesWithin r var e (es.length + 1) w ((accumulate w.acc es).elim (.error .outOfRange) .ok) := by
  induction es generalizing w ds with
  | nil =>
    refine .of_step (decidesWithin_of_verdict ?_)
    rw [List.append_nil] at hlen
    simp [decoderStep, hphase, hi, hlen, Working.verdict, accumulate]
  | cons d es ih =>
    rw [List.length_append, List.length_cons] at hlen
    have hlt : ds.length < e.lengthOperand := by omega
    have hcounter := counter_succ (c := w.i) (by omega)
    have hdig : w.digAt w.i.toNat = d := hi ▸ hholds.digAt_append
    have hstep : decoderStep r var e w =
        if (mulAdd64 w.acc d).1 then { w with phase := .failed .outOfRange }
        else { w with acc := (mulAdd64 w.acc d).2, i := w.i + 1 } := by
      simp only [decoderStep, hphase, hdig]
      rw [if_pos (hi ▸ hlt)]
    rw [accumulate]
    refine .of_step ?_
    rw [hstep]
    by_cases hover : (mulAdd64 w.acc d).1 = true
    · rw [if_pos hover, if_pos hover]
      exact (decidesWithin_of_verdict rfl).mono (Nat.zero_le _)
    · rw [if_neg hover, if_neg hover]
      refine ih (w := { w with acc := (mulAdd64 w.acc d).2, i := w.i + 1 }) (ds := ds ++ [d]) hphase ?_ ?_ ?_
      · rw [hcounter, hi, List.length_append, List.length_singleton]
      · rw [List.append_assoc]
        exact hholds
      · simp only [List.length_append, List.length_singleton]
        omega

/-! ## The whole sequencer of a decoder -/

/-- The outcome of a decoder with the length check and the canonical-form check that its kind has: what `decodeFixed` and `decodeVariable` have in
common. -/
def decodeBy (r : Rom) (var : Bool) (e : Engine) : Except ErrorKind Value :=
  if lengthAdmissible var e.lengthOperand then
    match r.lookupAll e.textOperand with
    | none => .error .invalidCharacter
    | some ds => if (var && nonCanonical ds) = true then .error .invalidFormat else accumulateOutcome ds
  else .error .invalidLength

theorem decodeBy_false (r : Rom) (e : Engine) : decodeBy r false e = decodeFixed r e := by
  by_cases h : e.len.toNat = 11
  · cases hlookup : r.lookupAll e.textOperand with
    | none => simp [decodeBy, lengthAdmissible, Engine.lengthOperand, h, hlookup, decodeFixed_of_lookupAll_none]
    | some ds => simp [decodeBy, lengthAdmissible, Engine.lengthOperand, h, hlookup, decodeFixed_of_lookupAll_some]
  · simp [decodeBy, lengthAdmissible, Engine.lengthOperand, h, decodeFixed_of_len_ne]

theorem decodeBy_true (r : Rom) (e : Engine) : decodeBy r true e = decodeVariable r e := by
  have hok := variableLengthOk_iff e.lengthOperand
  by_cases h : 1 ≤ e.len.toNat ∧ e.len.toNat ≤ 11
  · cases hlookup : r.lookupAll e.textOperand with
    | none => simp [decodeBy, lengthAdmissible, hok.2 h, hlookup, decodeVariable_of_lookupAll_none h]
    | some ds => simp [decodeBy, lengthAdmissible, hok.2 h, hlookup, decodeVariable_of_lookupAll_some h]
  · simp [decodeBy, lengthAdmissible, mt hok.1 h, decodeVariable_of_len_out r h]

theorem lengthAdmissible_le {n : Nat} (h : lengthAdmissible var n = true) : n ≤ 11 := by
  cases var with
  | false => exact Nat.le_of_eq (of_decide_eq_true h)
  | true => exact ((variableLengthOk_iff n).1 h).2

theorem accumulateOutcome_eq_elim (ds : List Digit) :
    accumulateOutcome ds = (accumulate 0 ds).elim (.error .outOfRange) .ok := by
  unfold accumulateOutcome
  cases accumulate 0 ds <;> rfl

/-- Once all characters are looked up, the outcome is decided by the canonical form and the accumulation. -/
theorem LookedUp.decides {ds : List Digit} (h : LookedUp w ds) (hlen : ds.length = e.lengthOperand)
    (hle : e.lengthOperand ≤ 11) :
    DecidesWithin r var e 13 w
      (if (var && nonCanonical ds) = true then .error .invalidFormat else accumulateOutcome ds) := by
  refine .of_step ?_
  rw [h.decoderStep_eq hlen]
  split
  · exact (decidesWithin_of_verdict rfl).mono (Nat.zero_le _)
  · rw [accumulateOutcome_eq_elim, ← h.acc_eq]
    refine DecidesWithin.mono ?_ (show ds.length + 1 ≤ 12 by omega)
    exact accumulating_decides (ds := []) rfl rfl h.holds hlen hle

/-- From `Start` the sequencer of either decoder has its outcome within 26 steps, whatever the working registers held (R180, R181). -/
theorem start_decides (h : w.phase = .start) : DecidesWithin r var e decoderBound w (decodeBy r var e) := by
  refine .of_step (n := 25) (.of_step (n := 24) ?_)
  rw [decoderStep_start h, decoderStep_length rfl, decodeBy]
  split
  · next hadmissible =>
    have hle := lengthAdmissible_le hadmissible
    have htextLen : e.textOperand.length = e.lengthOperand := textOperand_length e (hle.trans (by decide))
    have hbegin : LookedUp { w with phase := .validatingCharacters, acc := 0, i := 0 } [] :=
      ⟨rfl, rfl, rfl, holdsDigits_nil _⟩
    obtain ⟨hnone, hsome⟩ := hbegin.rest (r := r) (var := var) (cs := e.textOperand) hle (bs := []) rfl rfl
    split
    · next hlookup => exact (hnone hlookup).mono (show e.textOperand.length ≤ 24 by omega)
    · next ds hlookup =>
      have hds : ds.length = e.lengthOperand := (lookupAll_length hlookup).trans htextLen
      exact (DecidesWithin.of_iterate _ ((hsome ds hlookup).decides hds hle)).mono (show e.textOperand.length + 13 ≤ 24 by omega)
  · exact (decidesWithin_of_verdict rfl).mono (Nat.zero_le _)

end Decoder

/-- Settles O32: the two decoders are the two kinds of `decodeBy`. -/
theorem decoderSequencerAnswersTheCommand : Obligations.DecoderSequencerAnswersTheCommand := by
  intro r e w k hphase hk
  rw [← decodeBy_false, ← decodeBy_true]
  exact ⟨start_decides hphase k hk, start_decides hphase k hk⟩

/-! ## The digits an encoder still has to extract -/

/-- The divider exhausts exactly the values of one digit (R122). -/
theorem divMod64_fst_eq_zero_iff (v : Value) : (divMod64 v).1 = 0 ↔ varLen v = 1 := by
  obtain ⟨hpos, -, -, -⟩ := varLen_spec v
  have hone := varLen_le_iff_lt_pow v (Nat.le_refl 1)
  rw [← BitVec.toNat_inj, (divMod64_toNat v).1]
  show v.toNat / 64 = 0 ↔ _
  omega

/-- A divider step shortens a value of more digits by one (R121, R131). -/
theorem varLen_divMod64 {v : Value} {n : Nat} (hn : 1 ≤ n) (h : varLen v = n + 1) : varLen (divMod64 v).1 = n := by
  obtain ⟨-, -, hlt, hmin⟩ := varLen_spec v
  rw [h] at hlt hmin
  have hquot := (divMod64_toNat v).1
  refine varLen_eq_of_least hn ?_ fun m h1 hm => ?_
  · rw [hquot]
    exact Nat.div_lt_of_lt_mul (by rwa [Nat.pow_succ'] at hlt)
  · rw [hquot, Nat.le_div_iff_mul_le (by decide), ← Nat.pow_succ]
    exact hmin (m + 1) (by omega) (by omega)

/-- The number of divider steps to come: until the value is exhausted, or until there are eleven digits (R122). -/
def digitsLeft (var : Bool) (w : Working) : Nat := if var then varLen w.rem else 11 - w.cnt.toNat

/-- The working state after one divider step. -/
def Working.extract (var : Bool) (w : Working) : Working :=
  { w with
    phase := if digitsLeft var w = 1 then .mapping else .extracting
    rem := (divMod64 w.rem).1
    dig := w.dig.setIfInBounds w.cnt.toNat (divMod64 w.rem).2
    cnt := w.cnt + 1
    i := 0 }

section Encoder

variable {r : Rom} {var : Bool} {e : Engine} {w : Working}

theorem encoderStep_start (h : w.phase = .start) :
    encoderStep r var (w, e) = ({ w with phase := .extracting, rem := e.val, cnt := 0 }, e) := by
  simp only [encoderStep, h, Engine.valueOperand]

/-- The sequencer's test for the last digit says that one is left (R184). -/
theorem encoderStep_extracting (h : w.phase = .extracting) : encoderStep r var (w, e) = (w.extract var, e) := by
  have hlast : (if var then decide ((divMod64 w.rem).1 = 0) else decide (w.cnt.toNat + 1 = Config.fixedWidth)) =
      decide (digitsLeft var w = 1) := by
    cases var with
    | false => exact decide_eq_decide.2 (show w.cnt.toNat + 1 = 11 ↔ 11 - w.cnt.toNat = 1 by omega)
    | true => exact decide_eq_decide.2 (divMod64_fst_eq_zero_iff w.rem)
  simp only [encoderStep, h, hlast, decide_eq_true_eq, Working.extract]

theorem encoderStep_mapping_of_lt (h : w.phase = .mapping) (hlt : w.i.toNat < w.cnt.toNat) :
    encoderStep r var (w, e) = ({ w with i := w.i + 1 },
      { e with txt := e.txt.setIfInBounds w.i.toNat (r.charOf (w.digAt (w.cnt.toNat - 1 - w.i.toNat))) }) := by
  simp only [encoderStep, h, if_pos hlt]

theorem encoderStep_mapping_of_eq (h : w.phase = .mapping) (heq : w.i.toNat = w.cnt.toNat) :
    encoderStep r var (w, e) = ({ w with phase := .done }, { e with
      txt := e.txt.setIfInBounds w.cnt.toNat r.terminator, len := w.cnt.setWidth 32, status := statusSuccess }) := by
  simp only [encoderStep, h, heq, if_neg (Nat.lt_irrefl _)]

theorem encoderStep_done (h : w.phase = .done) : encoderStep r var (w, e) = (w, e) := by
  simp only [encoderStep, h]

theorem digitsLeft_extract {n : Nat} (hn : 1 ≤ n) (hleft : digitsLeft var w = n + 1) (hcnt : w.cnt.toNat ≤ 11) :
    digitsLeft var (w.extract var) = n := by
  cases var with
  | false =>
    have hcounter := counter_succ hcnt
    simp only [digitsLeft, Bool.false_eq_true, if_false, Working.extract] at hleft ⊢
    omega
  | true => exact varLen_divMod64 hn hleft

/-! ## Phase Extracting -/

/-- A divider step stores its digit after those held. -/
theorem extract_holdsDigits (var : Bool) {ds : List Digit} (hcnt : w.cnt.toNat = ds.length) (hholds : w.HoldsDigits ds)
    (hroom : ds.length < 11) :
    (w.extract var).cnt.toNat = (ds ++ [(divMod64 w.rem).2]).length ∧
      (w.extract var).HoldsDigits (ds ++ [(divMod64 w.rem).2]) := by
  refine ⟨(counter_succ (by omega)).trans ?_, hholds.store hroom ?_⟩
  · rw [hcnt, List.length_append, List.length_singleton]
  · simp only [Working.extract, hcnt]

/-- Phase Extracting stores the digits of the divider steps after those it holds, and leaves the engine alone (R184). -/
theorem extracting_iterate (n : Nat) {ds : List Digit} (hphase : w.phase = .extracting) (hcnt : w.cnt.toNat = ds.length)
    (hholds : w.HoldsDigits ds) (hleft : digitsLeft var w = n + 1) (hroom : ds.length + (n + 1) ≤ 11) :
    ∃ w' : Working, (encoderStep r var)^[n + 1] (w, e) = (w', e) ∧ w'.phase = .mapping ∧ w'.i = 0 ∧
      w'.cnt.toNat = ds.length + (n + 1) ∧ w'.HoldsDigits (ds ++ extractDigits (n + 1) w.rem) := by
  induction n generalizing w ds with
  | zero =>
    obtain ⟨hcnt', hholds'⟩ := extract_holdsDigits var hcnt hholds (by omega)
    refine ⟨w.extract var, encoderStep_extracting hphase, ?_, rfl, by simpa using hcnt', hholds'⟩
    simp only [Working.extract, hleft, if_pos]
  | succ n ih =>
    obtain ⟨hcnt', hholds'⟩ := extract_holdsDigits var hcnt hholds (by omega)
    have hnext : (w.extract var).phase = .extracting := if_neg (by omega)
    have hlen : (ds ++ [(divMod64 w.rem).2]).length = ds.length + 1 := by simp
    obtain ⟨w', hiterate, hmapping, hi, hcounter, hdigits⟩ := ih hnext hcnt' hholds'
      (digitsLeft_extract (by omega) hleft (by omega)) (by omega)
    refine ⟨w', ?_, hmapping, hi, by omega, ?_⟩
    · rw [Function.iterate_succ_apply, encoderStep_extracting hphase]
      exact hiterate
    · rw [extractDigits, List.append_cons]
      exact hdigits

/-! ## Phase Mapping -/

/-- Phase Mapping writes the characters `cs` that are left, then the terminator, `LEN` and `STATUS` (R25, R184). -/
theorem mapping_iterate {cs : List Byte} (hphase : w.phase = .mapping) (hcnt : w.i.toNat + cs.length = w.cnt.toNat)
    (hle : w.cnt.toNat ≤ 11)
    (hcs : ∀ j c, cs[j]? = some c → r.charOf (w.digAt (w.cnt.toNat - 1 - (w.i.toNat + j))) = c) :
    ∃ w' : Working, w'.phase = .done ∧ (encoderStep r var)^[cs.length + 1] (w, e) = (w', { e with
      txt := putBytes w.i.toNat (cs ++ [r.terminator]) e.txt, len := w.cnt.setWidth 32, status := statusSuccess }) := by
  induction cs generalizing w e with
  | nil =>
    refine ⟨{ w with phase := .done }, rfl, ?_⟩
    rw [List.length_nil, Nat.add_zero] at hcnt
    rw [hcnt]
    exact encoderStep_mapping_of_eq hphase hcnt
  | cons c cs ih =>
    rw [List.length_cons] at hcnt
    have hcounter := counter_succ (c := w.i) (by omega)
    have hchar : r.charOf (w.digAt (w.cnt.toNat - 1 - w.i.toNat)) = c := hcs 0 c rfl
    obtain ⟨w', hdone, hiterate⟩ := ih (w := { w with i := w.i + 1 }) (e := { e with txt := e.txt.setIfInBounds w.i.toNat c })
      hphase (by simp only [hcounter]; omega) hle (fun j d hj => by
        simp only [hcounter, Nat.add_assoc, Nat.add_comm 1 j]
        exact hcs (j + 1) d hj)
    refine ⟨w', hdone, ?_⟩
    rw [List.length_cons, Function.iterate_succ_apply, encoderStep_mapping_of_lt hphase (by omega), hchar, hiterate, hcounter]
    rfl

/-- The characters of digits held, read from the last digit register down, are their spelling (R123). -/
theorem Working.HoldsDigits.charOf_eq_of_spell {ds : List Digit} (h : w.HoldsDigits ds) (r : Rom) {j : Nat} {c : Byte}
    (hj : (r.spell ds)[j]? = some c) : r.charOf (w.digAt (ds.length - 1 - j)) = c := by
  have hlt : j < ds.length := by
    rw [← spell_length r ds]
    exact (List.getElem?_eq_some_iff.1 hj).1
  rw [Rom.spell, List.getElem?_map, List.getElem?_reverse hlt, Option.map_eq_some_iff] at hj
  obtain ⟨d, hd, rfl⟩ := hj
  rw [h _ d hd]

/-! ## The whole sequencer of an encoder -/

/-- From `Start` the sequencer that extracts `n` digits ends with the registers of the encoder of `n` digits, whatever the working registers held, and
stays there (R184). -/
theorem encoder_iterate {n k : Nat} (hphase : w.phase = .start)
    (hleft : digitsLeft var { w with phase := .extracting, rem := e.val, cnt := 0 } = n) (h1 : 1 ≤ n) (h11 : n ≤ 11)
    (hk : encoderBound ≤ k) :
    ∃ w' : Working, w'.phase = .done ∧
      (encoderStep r var)^[k] (w, e) = (w', e.finishEncode r.terminator (r.spell (extractDigits n e.val))) := by
  obtain ⟨n, rfl⟩ : ∃ m, n = m + 1 := ⟨n - 1, by omega⟩
  have hlen : (r.spell (extractDigits (n + 1) e.val)).length = n + 1 := by rw [spell_length, extractDigits_length]
  obtain ⟨u, hextract, hmapping, hi, hcnt, hholds⟩ := extracting_iterate (r := r) (e := e) n (ds := []) rfl rfl
    (holdsDigits_nil _) hleft (by simpa using h11)
  rw [List.length_nil, Nat.zero_add] at hcnt
  have hzero : u.i.toNat = 0 := by rw [hi]; rfl
  obtain ⟨w', hdone, hmap⟩ := mapping_iterate (r := r) (var := var) (e := e) (cs := r.spell (extractDigits (n + 1) e.val))
    hmapping (by omega) (by omega) (fun j c hj => by
      have hspell := hholds.charOf_eq_of_spell r hj
      rw [List.nil_append, extractDigits_length, ← hcnt] at hspell
      rwa [hzero, Nat.zero_add])
  have hwidth : u.cnt.setWidth 32 = BitVec.ofNat 32 (r.spell (extractDigits (n + 1) e.val)).length := by
    rw [hlen, ← hcnt, BitVec.ofNat_toNat]
  have hend : (encoderStep r var)^[(n + 1 + 1) + (n + 1) + 1] (w, e) =
      (w', e.finishEncode r.terminator (r.spell (extractDigits (n + 1) e.val))) := by
    rw [Function.iterate_succ_apply, encoderStep_start hphase, Function.iterate_add_apply, hextract]
    rw [hlen, hzero, hwidth] at hmap
    exact hmap
  have hbound : (n + 1 + 1) + (n + 1) + 1 ≤ k := le_trans (by omega) (show 24 ≤ k from hk)
  obtain ⟨j, rfl⟩ := Nat.exists_eq_add_of_le' hbound
  refine ⟨w', hdone, ?_⟩
  rw [Function.iterate_add_apply, hend, Function.iterate_fixed (encoderStep_done hdone)]

end Encoder

/-- Settles O33: `ENCF` is the encoder of eleven digits, `ENCV` that of `VarLen` digits. -/
theorem encoderSequencerAnswersTheCommand : Obligations.EncoderSequencerAnswersTheCommand := by
  intro s w k hphase hk
  constructor
  · obtain ⟨w', hdone, hiterate⟩ := encoder_iterate (r := s.rom) (var := false) (e := s.eng) (n := 11) hphase rfl
      (by decide) (by decide) hk
    rw [hiterate]
    exact ⟨hdone, rfl⟩
  · obtain ⟨hpos, hle, -, -⟩ := varLen_spec s.eng.val
    obtain ⟨w', hdone, hiterate⟩ := encoder_iterate (r := s.rom) (var := true) (e := s.eng) hphase rfl hpos hle hk
    rw [hiterate]
    exact ⟨hdone, exec_encv_eq s⟩

/-! ## The one-pass decoders -/

/-- One pass over what is left of a text has the outcome of two: the value so far has `n` digits, so with eleven in all nothing but the last digit can
overflow, and every character has been looked up by then (R128, R183). -/
theorem onePass_eq (r : Rom) {acc : Value} {n : Nat} {cs : List Byte} (hacc : acc.toNat < 64 ^ n)
    (hlen : n + cs.length ≤ 11) :
    onePass r acc cs =
      (r.lookupAll cs).elim (.error .invalidCharacter) fun ds => (accumulate acc ds).elim (.error .outOfRange) .ok := by
  induction cs generalizing acc n with
  | nil => rfl
  | cons c cs ih =>
    rw [List.length_cons] at hlen
    simp only [onePass, Rom.lookupAll]
    cases hd : r.digitOf c with
    | none => rfl
    | some d =>
      obtain ⟨hover, hkept⟩ := mulAdd64_spec acc d
      have hdigit : d.toNat < 64 := d.isLt
      have hnext : acc.toNat * 64 + d.toNat < 64 ^ (n + 1) := by
        rw [Nat.pow_succ]
        omega
      by_cases hlast : (mulAdd64 acc d).1 = true
      · have hpow : ¬ 64 ^ (n + 1) ≤ 64 ^ 10 := by
          have hge := hover.1 hlast
          omega
        have hten : 10 ≤ n := by
          by_contra hlt
          exact hpow (Nat.pow_le_pow_right (by decide) (by omega))
        obtain rfl : cs = [] := List.length_eq_zero_iff.1 (by omega)
        simp [Rom.lookupAll, accumulate, hlast]
      · have hfits := hkept (by simpa using hlast)
        simp only [if_neg hlast]
        rw [ih (hfits ▸ hnext) (by omega)]
        cases r.lookupAll cs with
        | none => rfl
        | some ds => simp only [Option.elim_some, accumulate, if_neg hlast]

theorem decodeFixedOnePass_eq (r : Rom) (e : Engine) : decodeFixedOnePass r e = decodeFixed r e := by
  by_cases h : e.len.toNat = 11
  · have hpass : decodeFixedOnePass r e = onePass r 0 e.textOperand := if_neg (not_not.2 h)
    have htextLen := textOperand_length e (by omega)
    rw [hpass, onePass_eq r (n := 0) (by decide) (by omega)]
    cases hlookup : r.lookupAll e.textOperand with
    | none => exact (decodeFixed_of_lookupAll_none h hlookup).symm
    | some ds => exact ((decodeFixed_of_lookupAll_some h hlookup).trans (accumulateOutcome_eq_elim ds)).symm
  · exact (if_pos h).trans (decodeFixed_of_len_ne r h).symm

/-- Settles O34: overflow comes at the last digit only; and the eager decoder stops at the first of two characters, the command at the second. -/
theorem onePassRealisations : Obligations.OnePassRealisations := by
  refine ⟨decodeFixedOnePass_eq, fun r e _ hlen hsymbol hnone => ?_⟩
  have h2 : e.len.toNat = 2 := congrArg BitVec.toNat hlen
  have htext : e.textOperand = [r.zeroSymbol, e.txtAt 1] := by
    refine List.ext_getElem (by rw [textOperand_length e (by omega), h2]; rfl) fun i hi _ => ?_
    rw [textOperand_length e (by omega), h2] at hi
    have hget := textOperand_getElem? e i (by omega) (by omega)
    obtain ⟨_, hget⟩ := List.getElem?_eq_some_iff.1 hget
    interval_cases i
    · exact hget.trans hsymbol
    · exact hget
  constructor
  · simp [decodeVariableEager, Engine.lengthOperand, h2, variableLengthOk, htext]
  · refine decodeVariable_of_lookupAll_none (by omega) ((lookupAll_eq_none_iff r _).2 ⟨e.txtAt 1, ?_, hnone⟩)
    simp [htext]

end Sys2Proof.Machine

end

section
/-! PROOFS. The exceptions (60_exceptions.md): the code a decoder reports, and what it leaves unchanged. -/

namespace Sys2Proof.Machine

/-! ## The order of the checks, in the words of the operands -/

/-- The four kinds, in the order of the checks (R180, R200). -/
theorem forall_errorKind {p : ErrorKind → Prop} :
    (∀ k, p k) ↔ p .invalidLength ∧ p .invalidCharacter ∧ p .invalidFormat ∧ p .outOfRange := by
  refine ⟨fun h => ⟨h _, h _, h _, h _⟩, fun ⟨hlen, hchar, hformat, hrange⟩ k => ?_⟩
  cases k <;> assumption

theorem no_violation_iff_checks (m : Instr) (s : State) :
    (∀ k, ¬ Violates m s k) ↔
      lengthCheckPasses m s.eng.len.toNat ∧ s.eng.allMembers s.rom ∧ ¬ Violates m s .invalidFormat ∧
        s.eng.textValue s.rom < 2 ^ 64 :=
  forall_errorKind.trans (and_congr not_not (and_congr not_not (and_congr_right' not_le)))

/-- The length and the characters are checked before the canonical form (R180). -/
theorem firstViolation_invalidFormat_iff_checks (m : Instr) (s : State) :
    FirstViolation m s .invalidFormat ↔
      lengthCheckPasses m s.eng.len.toNat ∧ s.eng.allMembers s.rom ∧ Violates m s .invalidFormat := by
  have hbefore : FirstViolation m s .invalidFormat ↔
      Violates m s .invalidFormat ∧ ¬ Violates m s .invalidLength ∧ ¬ Violates m s .invalidCharacter := by
    simp [FirstViolation, forall_errorKind, ErrorKind.code]
  rw [hbefore, and_comm, and_assoc]
  exact and_congr not_not (and_congr_left' not_not)

/-- The range is checked after everything else (R180). -/
theorem firstViolation_outOfRange_iff_checks (m : Instr) (s : State) :
    FirstViolation m s .outOfRange ↔
      lengthCheckPasses m s.eng.len.toNat ∧ s.eng.allMembers s.rom ∧ ¬ Violates m s .invalidFormat ∧
        2 ^ 64 ≤ s.eng.textValue s.rom := by
  have hbefore : FirstViolation m s .outOfRange ↔ Violates m s .outOfRange ∧
      ¬ Violates m s .invalidLength ∧ ¬ Violates m s .invalidCharacter ∧ ¬ Violates m s .invalidFormat := by
    simp [FirstViolation, forall_errorKind, ErrorKind.code]
  rw [hbefore, and_comm, and_assoc, and_assoc]
  exact and_congr not_not (and_congr_left' not_not)

/-- On members, the leading digit is 0 exactly when the leading character is the zero-symbol (R106, R163). -/
theorem violates_invalidFormat_iff_paddedFor {m : Instr} {s : State} (hwf : s.rom.wf) (hmembers : s.eng.allMembers s.rom) :
    Violates m s .invalidFormat ↔ paddedFor m s :=
  and_congr_right fun _ => and_congr_right fun h2 => digitAt_eq_zero_iff hwf (hmembers 0 (by omega))

/-! ## The status a decoder leaves -/

theorem Engine.statusFinal.eq_success_iff {e : Engine} (h : e.statusFinal) :
    e.status = statusSuccess ↔ ∀ k, e.status ≠ statusFailure k := by
  constructor
  · intro hsuccess k hk
    exact statusFailure_ne_success k (hk.symm.trans hsuccess)
  · intro hnone
    exact h.resolve_right (not_exists.2 hnone)

/-- A decoder's next state reports success exactly when no condition is violated (R203). -/
theorem status_eq_success_iff_no_violation {s t : State} {m : Instr} (hexec : exec m s = .next t)
    (hstatus : ∀ k, t.eng.status = statusFailure k ↔ FirstViolation m s k) :
    t.eng.status = statusSuccess ↔ ∀ k, ¬ Violates m s k := by
  have hfinal : t.eng.statusFinal := by
    obtain ⟨e, he, hfinal, -⟩ := exec_eq_next_setEng m s
    cases hexec.symm.trans he
    exact hfinal
  rw [hfinal.eq_success_iff]
  constructor
  · intro hnone k hk
    obtain ⟨j, hj⟩ := exists_firstViolation hk
    exact hnone j ((hstatus j).2 hj)
  · intro hnone k hk
    exact hnone k ((hstatus k).1 hk).1

/-- Settles O20: a decoder's status is the code of the first violation, and for a valid ROM the canonical form can be read off the characters. -/
theorem firstViolationIsReported : Obligations.FirstViolationIsReported := by
  intro s m hwf hm
  obtain ⟨t, hexec, hstatus⟩ := exec_decoder_status s hm
  have hpadded := violates_invalidFormat_iff_paddedFor (m := m) hwf
  have hunpadded (hmembers : s.eng.allMembers s.rom) := not_congr (hpadded hmembers)
  refine ⟨t, hexec, ?length, ?character, ?format, ?range, ?success⟩
  case length => exact (hstatus .invalidLength).trans (firstViolation_invalidLength_iff m s)
  case character => exact (hstatus .invalidCharacter).trans (firstViolation_invalidCharacter_iff m s)
  case format =>
    refine (hstatus .invalidFormat).trans ((firstViolation_invalidFormat_iff_checks m s).trans ?_)
    exact and_congr_right fun _ => and_congr_right hpadded
  case range =>
    refine (hstatus .outOfRange).trans ((firstViolation_outOfRange_iff_checks m s).trans ?_)
    exact and_congr_right fun _ => and_congr_right fun hmembers => and_congr_left' (hunpadded hmembers)
  case success =>
    refine (status_eq_success_iff_no_violation hexec hstatus).trans ((no_violation_iff_checks m s).trans ?_)
    exact and_congr_right fun _ => and_congr_right fun hmembers => and_congr_left' (hunpadded hmembers)

/-! ## What a decoder leaves unchanged -/

/-- The fields of the word of a failure: `OK` 0, bits 31:4 zero, `ERR` 1 to 4 (R28, R204). -/
theorem statusFailure_fields (k : ErrorKind) :
    (statusFailure k).extractLsb' 0 1 = 0 ∧ (statusFailure k).extractLsb' 4 28 = 0 ∧
      1 ≤ ((statusFailure k).extractLsb' 1 3).toNat ∧ ((statusFailure k).extractLsb' 1 3).toNat ≤ 4 := by
  cases k <;> decide

/-- Settles O21: a decoder ends with one outcome, and both ends of it write `VAL`, `STATUS` and the counter of draws only. -/
theorem decodersTouchOnlyValAndStatus : Obligations.DecodersTouchOnlyValAndStatus := by
  intro s m hm
  obtain ⟨o, hexec⟩ := exec_decoder_eq s hm
  cases o with
  | ok v => exact .inl ⟨v, (succeedsWith_iff_of_outcome hexec v).2 rfl⟩
  | error k => exact .inr ⟨statusFailure k, endsWithError_of_outcome hexec, statusFailure_fields k⟩

end Sys2Proof.Machine

end

section
/-! PROOFS. Reset and hazards (70_reset_and_hazards.md): which moves a step completes, what a reset changes, and the construction check. -/

namespace Sys2Proof.Machine

/-! ## The admitted moves -/

/-- The indices that are not reserved are those of the registers (R51, R54). -/
theorem indexOk_iff (r : Nat) : indexOk r = true ↔ ∃ g : Reg, r = g.index := by
  simp only [indexOk_eq, Option.isSome_iff_exists, ofIndex_eq_some_iff]

theorem ofNat_eq_encode_iff {v : Nat} (hv : v < 2 ^ 32) : (∃ m, BitVec.ofNat 32 v = encode m) ↔ v < 4 := by
  have htoNat : (BitVec.ofNat 32 v).toNat = v := (BitVec.toNat_ofNat v 32).trans (Nat.mod_eq_of_lt hv)
  constructor
  · rintro ⟨m, hm⟩
    rw [← htoNat, hm]
    exact encode_toNat_lt m
  · intro hlt
    exact exists_encode_of_le _ (by omega)

/-- Every register takes every number of its width, but for `CMD`, which takes the four command words (R52, R73). -/
theorem exists_decodeWrite_iff {g : Reg} {v : Nat} (hv : v < 2 ^ g.width) :
    (∃ l, decodeWrite v g = .ok l) ↔ g.index ≠ 2 ∨ v < 4 := by
  cases g with
  | cmd => simp [decodeWrite_cmd_eq_ok_iff, exists_comm, ofNat_eq_encode_iff hv, Reg.index]
  | val | len | status => simp [decodeWrite, Reg.index]
  | txt i => exact iff_of_true ⟨_, rfl⟩ (.inl (show 16 + i.val ≠ 2 by omega))

theorem rawAccess_wf_write_iff (r v : Nat) :
    (RawAccess.write r v).wf = true ↔ ∃ g : Reg, r = g.index ∧ v < 2 ^ g.width ∧ (g.index ≠ 2 ∨ v < 4) := by
  simp only [RawAccess.wf, Bool.and_eq_true, Bool.or_eq_true, decide_eq_true_eq, indexOk_iff]
  constructor
  · rintro ⟨⟨⟨g, rfl⟩, hwidth⟩, hcmd⟩
    exact ⟨g, rfl, indexWidth_eq g ▸ hwidth, hcmd⟩
  · rintro ⟨g, rfl, hwidth, hcmd⟩
    exact ⟨⟨⟨g, rfl⟩, indexWidth_eq g ▸ hwidth⟩, hcmd⟩

/-- The triples the spec admits are those the decoder accepts (R52, R54, R73). -/
theorem exists_decodeAccess_iff (a : RawAccess) : (∃ l, decodeAccess a = .ok l) ↔ a.wf = true := by
  cases a with
  | read r =>
    have hwf : (RawAccess.read r).wf = true ↔ ∃ g : Reg, r = g.index := indexOk_iff r
    rw [hwf]
    simp only [decodeAccess_read_eq_ok_iff]
    exact ⟨fun ⟨_, g, hg, _⟩ => ⟨g, hg⟩, fun ⟨g, hg⟩ => ⟨_, g, hg, rfl⟩⟩
  | write r v =>
    simp only [rawAccess_wf_write_iff, decodeAccess_write_eq_ok_iff]
    constructor
    · rintro ⟨l, g, hr, hv, hl⟩
      exact ⟨g, hr, hv, (exists_decodeWrite_iff hv).1 ⟨l, hl⟩⟩
    · rintro ⟨g, hr, hv, hcmd⟩
      obtain ⟨l, hl⟩ := (exists_decodeWrite_iff hv).2 hcmd
      exact ⟨l, g, hr, hv, hl⟩

/-! ## The steps that complete -/

/-- A decoded access completes: the commands do (R186), and so does every read and every other write (R53). -/
theorem exists_runLine_eq_next (s : State) (l : Line) : ∃ t, runLine s l = .next t := by
  cases l with
  | cmd m =>
    obtain ⟨e, hexec, -⟩ := exec_eq_next_setEng m s
    exact ⟨_, hexec⟩
  | wrVal | wrLen | wrStatus | wrTxt | rd => exact ⟨_, rfl⟩

/-- A reset that names an engine of the machine puts it into focus and resets it there (R230). -/
theorem runMove_reset_of_focus {s t : State} {k : Nat} (h : s.focus k = some t) :
    runMove s (.reset k) = .next (t.setEng (t.eng.reset k)) := by
  obtain ⟨-, -, hinst, -, -, -⟩ := (focus_eq_some_iff s t k).1 h
  simp only [runMove, h, hinst]

/-- A move completes exactly when it is admitted on a machine of that many engines (R248). -/
theorem exists_runMove_eq_next_iff (s : State) (m : Move) : (∃ t, runMove s m = .next t) ↔ m.wf s.engines.length = true := by
  constructor
  · rintro ⟨u, hrun⟩
    obtain ⟨k, a, l, t, rfl, hf, hdecode, -⟩ | ⟨k, t, rfl, hf, -⟩ := runMove_eq_next hrun
    all_goals obtain ⟨hk, -⟩ := (focus_eq_some_iff s t k).1 hf
    · simp [Move.wf, hk, (exists_decodeAccess_iff a).1 ⟨l, hdecode⟩]
    · simp [Move.wf, hk]
  · intro hwf
    cases m with
    | access k a =>
      obtain ⟨hk, ha⟩ : k < s.engines.length ∧ a.wf = true := by simpa [Move.wf] using hwf
      obtain ⟨t, hf⟩ := exists_focus hk
      obtain ⟨l, hl⟩ := (exists_decodeAccess_iff a).2 ha
      rw [runMove_access_of_focus a hf, runAccess_of_decode t hl]
      exact exists_runLine_eq_next t l
    | reset k =>
      obtain ⟨t, hf⟩ := exists_focus (s := s) (k := k) (by simpa [Move.wf] using hwf)
      exact ⟨_, runMove_reset_of_focus hf⟩

/-- Settles O6: an ended script stands still, and otherwise the step is the next move, which completes exactly when it is admitted. -/
theorem stepCompletesExactlyOnAdmittedMoves : Obligations.StepCompletesExactlyOnAdmittedMoves := by
  intro s
  cases hs : s.script with
  | nil => exact iff_of_true ⟨s, step_of_script_nil hs⟩ (.inl rfl)
  | cons m rest =>
    rw [step_of_script_cons hs, exists_runMove_eq_next_iff]
    constructor
    · exact fun hwf => .inr ⟨m, rest, rfl, hwf⟩
    · rintro (hnil | ⟨m', rest', hcons, hwf⟩)
      · cases hnil
      · cases hcons
        exact hwf

/-! ## Reset -/

/-- Settles O39: the step resets the engine it brings into focus, and as an update of that engine it leaves every other. -/
theorem resetMoveClearsStatus : Obligations.ResetMoveClearsStatus := by
  intro s k rest hs hk
  obtain ⟨t, hf⟩ := exists_focus (s := { s with script := rest }) hk
  obtain ⟨-, -, hinst, hrom, hscript, hreplies⟩ := (focus_eq_some_iff _ t k).1 hf
  have hrun := runMove_reset_of_focus hf
  have hupd := runMove_updatesAt hrun
  refine ⟨_, (step_of_script_cons hs).trans hrun, hinst, reset_status _ k, hrom, hscript, hreplies, ?length, ?others⟩
  case length => exact hupd.engines_length
  case others => exact fun j hj => hupd.getElem?_ne hj

theorem reset_engines : State.reset.engines = [Engine.atReset] := rfl

theorem forall_mem_reset_engines {p : Engine → Prop} (h : p Engine.atReset) : ∀ e ∈ State.reset.engines, p e := by
  simpa [reset_engines] using h

/-- Settles O40: the machine has one engine, whose `STATUS` is 0, and the other fields are those `State.reset` names. -/
theorem resetState : Obligations.ResetState :=
  ⟨forall_mem_reset_engines rfl, congrArg List.length reset_engines, rfl, rfl, rfl, rfl⟩

/-- The codes of the default alphabet (R8): the capital letters, the small letters, the figures, `-` and `_`. -/
theorem map_toNat_refAlphabet : Config.refAlphabet.toList.map BitVec.toNat =
    List.range' 0x41 26 ++ List.range' 0x61 26 ++ List.range' 0x30 10 ++ [0x2D, 0x5F] := by decide

theorem toNat_range_of_mem_refAlphabet {c : Byte} (h : c ∈ Config.refAlphabet.toList) : 0x2D ≤ c.toNat ∧ c.toNat ≤ 0x7A := by
  have hcode := List.mem_map_of_mem (f := BitVec.toNat) h
  simp only [map_toNat_refAlphabet, List.mem_append, List.mem_range'_1, List.mem_cons, List.not_mem_nil, or_false] at hcode
  omega

/-- The default alphabet meets the construction check: its codes are distinct, and their range is printable and leaves the
default terminator 0x00 out (R8, R100, R101). -/
theorem alphabetOk_refAlphabet : alphabetOk Config.refAlphabet Config.defaultTerminator = true := by
  refine (alphabetOk_iff _ _).2 ⟨?distinct, fun c hc => ?printable, fun hmem => ?terminator⟩
  case distinct =>
    refine List.Nodup.of_map BitVec.toNat ?_
    rw [map_toNat_refAlphabet]
    decide
  case printable =>
    obtain ⟨hlow, hhigh⟩ := toNat_range_of_mem_refAlphabet hc
    simp only [printable, Bool.and_eq_true, decide_eq_true_eq]
    omega
  case terminator => exact absurd (toNat_range_of_mem_refAlphabet hmem) (by decide)

theorem atReset_statusLegal : Engine.atReset.statusLegal := List.mem_cons_self

/-- Settles O45: the ROM is built from a valid alphabet, and the status 0 of reset is a possible one. -/
theorem resetHasInvariant : Obligations.ResetHasInvariant :=
  ⟨(wf_romOf _ _).2 alphabetOk_refAlphabet, forall_mem_reset_engines atReset_statusLegal⟩

/-! ## Construction -/

theorem toList_eq_ofFn (a : Vector Byte 64) : a.toList = List.ofFn fun i : Fin 64 => a[i] :=
  List.ext_getElem (a.length_toList.trans List.length_ofFn.symm) fun i _ _ => by
    simp only [Vector.getElem_toList, List.getElem_ofFn, Fin.getElem_fin]

/-- The construction check, place by place: distinct printable bytes, none of them the terminator (R7, R100, R101). -/
theorem alphabetOk_iff_getElem (a : Vector Byte 64) (t : Byte) :
    alphabetOk a t = true ↔ (∀ i j : Fin 64, a[i] = a[j] → i = j) ∧
      (∀ i : Fin 64, 0x21 ≤ a[i].toNat ∧ a[i].toNat ≤ 0x7E) ∧ ∀ i : Fin 64, a[i] ≠ t := by
  rw [alphabetOk_iff, toList_eq_ofFn, List.nodup_ofFn, List.forall_mem_ofFn_iff, List.mem_ofFn]
  simp [Function.Injective, printable]

theorem constructRom_ne_none_iff (a : Vector Byte 64) (t : Byte) : constructRom a t ≠ none ↔ alphabetOk a t = true := by
  simp only [Option.ne_none_iff_exists', constructRom_eq_some_iff, exists_and_left, exists_eq, and_true]

theorem charOf_romOf (a : Vector Byte 64) (t : Byte) (d : Digit) : (romOf a t).charOf d = a[d.toFin] := rfl

/-- Settles O46: the check holds place by place, and over the ROM it lets through the lookups are inverse to each other. -/
theorem constructionChecksAlphabet : Obligations.ConstructionChecksAlphabet := by
  intro a t
  refine ⟨(constructRom_ne_none_iff a t).trans (alphabetOk_iff_getElem a t), fun r hr => ?_⟩
  obtain ⟨hok, rfl⟩ := (constructRom_eq_some_iff a t r).1 hr
  have hwf : (romOf a t).wf := (wf_romOf a t).2 hok
  exact ⟨hwf, rfl, charOf_romOf a t, digitOf_eq_some_iff hwf⟩

end Sys2Proof.Machine

end
